-- ==== Sys2Proof/Word.lean ====
section
/-! DEFINITION. The word types of the serial FIFO block (SFB): the byte every ring slot and data register holds, and
the words of the operation and response encodings. -/

namespace Sys2Proof

/-- A datum: every ring slot, `THR` and `RDR` hold one byte of 8 bits, unsigned (00_scope.md R9). -/
abbrev Byte := BitVec 8

/-- An operation word, `OP` in bits 39:32 and `ARG` in bits 31:0 (30_encoding.md R100). -/
abbrev OpWord := BitVec 40

/-- INIT's argument, a 32-bit unsigned baud rate (30_encoding.md R101). -/
abbrev Baud := BitVec 32

/-- A response word of `resp_log` (30_encoding.md R106). -/
abbrev Response := BitVec 16

end Sys2Proof
end

