-- ==== Sys2Proof/Config.lean ====
section
/-! DEFINITION. The parameters of 00_scope.md R10 as plain data, the default configuration, and the two values the
spec leaves open as functions: `divisor_of` (R14) and the draw of an inverted READ (41_receive.md R171). -/

namespace Sys2Proof

/-- READ's availability test (00_scope.md R10; 90_conflicts.md C1). -/
inductive ReadPolarity where
  | contract
  | inverted
deriving DecidableEq, Repr

/-- What happens to a byte arriving while `RXF = 1` (00_scope.md R10; decision D8). -/
inductive OverrunPolicy where
  | dropNew
  | overwrite
deriving DecidableEq, Repr

/-- What a write to the THR does while `THRF = 1` (00_scope.md R10; decision D10). -/
inductive ThrFullWrite where
  | drop
  | overwrite
deriving DecidableEq, Repr

/-- Which of its two reads WRITE's direct-path test makes first (00_scope.md R10; decision D29). -/
inductive DirectCheckOrder where
  | hwFirst
  | ringFirst
deriving DecidableEq, Repr

/-- The choice when RXH and TXH are both enabled (00_scope.md R10; 60_exceptions.md R265). -/
inductive HandlerArb where
  | any
  | rxFirst
  | txFirst
deriving DecidableEq, Repr

/-- The ring storage at reset (00_scope.md R10; decision D27). -/
inductive BufInit where
  | unspecified
  | zero
deriving DecidableEq, Repr

/-- The parameters a model takes (00_scope.md R10), all but `divisor_of`. They are parameters of the step relation
(10_state.md R53); the state carries them because the host fixes the type of `step`
(DESIGN CHOICE, notes/assumptions/1.md). -/
structure Config where
  /-- `RX_CAP` (R7). -/
  rxCap : Nat
  /-- `TX_CAP` (R7). -/
  txCap : Nat
  /-- `IDX_W` (R8). -/
  idxW : Nat
  /-- `DIV_W` (R10; OPEN). -/
  divW : Nat
  readPolarity : ReadPolarity
  overrunPolicy : OverrunPolicy
  thrFullWrite : ThrFullWrite
  directCheckOrder : DirectCheckOrder
  handlerArb : HandlerArb
  bufInit : BufInit
  /-- `NO_DATA_BYTE`, of the byte-only interface view only (30_encoding.md R107). -/
  noDataByte : Byte
deriving DecidableEq, Repr

/-- The default column of 00_scope.md R10. `RX_CAP` and `TX_CAP` have no default: 8 and 4 are those of
95_test_vectors.md section 0 (DESIGN CHOICE, notes/assumptions/2.md). `DIV_W` is OPEN: 16 is the model's
(DESIGN CHOICE, notes/assumptions/4.md). -/
def Config.default : Config where
  rxCap := 8
  txCap := 4
  idxW := 8
  divW := 16
  readPolarity := .contract
  overrunPolicy := .dropNew
  thrFullWrite := .drop
  directCheckOrder := .hwFirst
  handlerArb := .any
  bufInit := .unspecified
  noDataByte := 0xFF

/-- `divisor_of`, an opaque total function from a 32-bit baud rate to a divisor of `DIV_W = w` bits; no rule assumes
any property of it (00_scope.md R14; notes/assumptions/5.md). -/
opaque Config.divisorOf : (w : Nat) → Baud → BitVec w

/-- The free value of `draw {t, next(t)}` at stage RD3 of a READ under `INVERTED` (41_receive.md R171): whether the
`n`-th draw of the run advances the tail. Applied to the counter `State.draws` (notes/assumptions/11.md). -/
opaque Config.drawAdvances : Nat → Bool

end Sys2Proof
end

