-- ==== Sys2Proof/Syntax.lean ====
section
/-! DEFINITION. The ten operation words of 30_encoding.md R102 as one inductive, and the classes and agents the same
table gives them. Each operand is a field of exactly the width R101 gives it. -/

namespace Sys2Proof

/-- The rows of spec/opcode_table.json (30_encoding.md R102). -/
inductive Instr where
  /-- `INIT`: issue `initialize(baud)` (43_driver.md R246). -/
  | init (baud : Baud)
  /-- `WRITE`: issue `writeByte(b)` (42_transmit.md R200). -/
  | write (b : Byte)
  /-- `AVAIL`: issue `bytesAvailable()` (41_receive.md R165). -/
  | avail
  /-- `READ`: issue `readByte()` (41_receive.md R170, R171). -/
  | read
  /-- `FLUSH`: issue `flush()` (41_receive.md R175). -/
  | flush
  /-- `STEP`: run the App's current stage (43_driver.md R244). -/
  | step
  /-- `RXH`: one receive handler firing (41_receive.md R162). -/
  | rxh
  /-- `TXH`: one transmit handler firing (42_transmit.md R212). -/
  | txh
  /-- `LINE_RX`: LINE delivers `d` (41_receive.md R160). -/
  | lineRx (d : Byte)
  /-- `LINE_TX`: LINE drains the THR (42_transmit.md R220). -/
  | lineTx
deriving DecidableEq, Repr

/-- The five App operations (00_scope.md R3). -/
inductive Op where
  | init
  | write
  | avail
  | read
  | flush
deriving DecidableEq, Repr

/-- The four agents (92_eei_decisions.md D4; the `agent` column of 30_encoding.md R102). -/
inductive Agent where
  | app
  | rxh
  | txh
  | line
deriving DecidableEq, Repr

/-- The classes of 30_encoding.md R103. -/
inductive InstrClass where
  | issue
  | microStep
  | handlerFiring
  | environmentEvent
deriving DecidableEq, Repr

/-- The `agent` column of 30_encoding.md R102. Its "handler context" is the one context RXH and TXH share
(60_exceptions.md R267). -/
def Instr.agent : Instr → Agent
  | .init _ => .app
  | .write _ => .app
  | .avail => .app
  | .read => .app
  | .flush => .app
  | .step => .app
  | .rxh => .rxh
  | .txh => .txh
  | .lineRx _ => .line
  | .lineTx => .line

/-- The `class` column of 30_encoding.md R102. -/
def Instr.cls : Instr → InstrClass
  | .init _ => .issue
  | .write _ => .issue
  | .avail => .issue
  | .read => .issue
  | .flush => .issue
  | .step => .microStep
  | .rxh => .handlerFiring
  | .txh => .handlerFiring
  | .lineRx _ => .environmentEvent
  | .lineTx => .environmentEvent

end Sys2Proof
end

