-- ==== Sys2Proof/WellFormed.lean ====
section
/-! DEFINITION. Well-formedness: of an operation word's argument (30_encoding.md R101), of an instruction, and of a
configuration (00_scope.md R7, R8, R10). -/

namespace Sys2Proof

/-- The argument check of 30_encoding.md R101, for the operation code `op`: `ARG[31:8] = 0` for WRITE and LINE_RX,
`ARG = 0` for the words that take no argument, nothing for INIT. An operation code R102 does not list has no
well-formed argument (R104). -/
def argWellFormed (op : BitVec 8) (arg : BitVec 32) : Bool :=
  match op.toNat with
  | 0x01 => true
  | 0x02 => arg.extractLsb' 8 24 == 0
  | 0xC1 => arg.extractLsb' 8 24 == 0
  | 0x03 => arg == 0
  | 0x04 => arg == 0
  | 0x05 => arg == 0
  | 0x40 => arg == 0
  | 0x81 => arg == 0
  | 0x82 => arg == 0
  | 0xC2 => arg == 0
  | _ => false

/-- Every term of `Instr` is well formed: each operand's type is exactly the field R101 gives it (32 bits of `baud`, 8
bits of `b` and `d`), so a value outside the field cannot be written. The checks that can fail are those on words
(`argWellFormed`) and on configurations (`Config.wf`). -/
def Instr.wellFormed : Instr → Bool
  | .init _ => true
  | .write _ => true
  | .avail => true
  | .read => true
  | .flush => true
  | .step => true
  | .rxh => true
  | .txh => true
  | .lineRx _ => true
  | .lineTx => true

/-- The constraints on the parameters: `2 <= TX_CAP`, `TX_CAP < RX_CAP`, `RX_CAP <= 2^IDX_W` (00_scope.md R7),
`IDX_W >= 1` and `DIV_W >= 1` (R10). -/
def Config.wf (c : Config) : Bool :=
  decide (2 ≤ c.txCap) && decide (c.txCap < c.rxCap) && decide (c.rxCap ≤ 2 ^ c.idxW) && decide (1 ≤ c.idxW)
    && decide (1 ≤ c.divW)

end Sys2Proof
end

