-- ==== Sys2Proof/Decode.lean ====
section
/-! DEFINITION. The 40-bit operation word (30_encoding.md R100 to R105): the opcode table as data, the decoder, total
on every word and rejecting by name, and the encoder. -/

namespace Sys2Proof

/-- Why a word is reserved (30_encoding.md R104). -/
inductive Reserved where
  /-- Its `OP` is not listed in R102 (`0x00` among them). -/
  | unlistedOp
  /-- Its `OP` is listed and a bit R101 requires to be 0 is 1. -/
  | nonzeroArg
deriving DecidableEq, Repr

/-- The result of decoding: one row of R102 with its argument fields, or `Reserved` (30_encoding.md R105). -/
inductive Decoded where
  | row (i : Instr)
  | reserved (why : Reserved)
deriving DecidableEq, Repr

/-- One row of spec/opcode_table.json. -/
structure OpcodeRow where
  mnemonic : String
  bits : OpWord
  mask : OpWord
deriving DecidableEq, Repr

/-- spec/opcode_table.json, its `match` and `mask` columns (30_encoding.md R102). -/
def opcodeTable : List OpcodeRow :=
  [ ⟨"INIT", 0x0100000000, 0xFF00000000⟩,
    ⟨"WRITE", 0x0200000000, 0xFFFFFFFF00⟩,
    ⟨"AVAIL", 0x0300000000, 0xFFFFFFFFFF⟩,
    ⟨"READ", 0x0400000000, 0xFFFFFFFFFF⟩,
    ⟨"FLUSH", 0x0500000000, 0xFFFFFFFFFF⟩,
    ⟨"STEP", 0x4000000000, 0xFFFFFFFFFF⟩,
    ⟨"RXH", 0x8100000000, 0xFFFFFFFFFF⟩,
    ⟨"TXH", 0x8200000000, 0xFFFFFFFFFF⟩,
    ⟨"LINE_RX", 0xC100000000, 0xFFFFFFFF00⟩,
    ⟨"LINE_TX", 0xC200000000, 0xFFFFFFFFFF⟩ ]

/-- A word selects a row when its masked bits are the row's (30_encoding.md R102). -/
def OpcodeRow.selects (r : OpcodeRow) (w : OpWord) : Bool := w &&& r.mask == r.bits

/-- `OP`, bits 39:32 (30_encoding.md R100). -/
def opField (w : OpWord) : BitVec 8 := w.extractLsb' 32 8

/-- `ARG`, bits 31:0 (30_encoding.md R100). -/
def argField (w : OpWord) : BitVec 32 := w.extractLsb' 0 32

/-- `ARG[7:0]`, the byte of WRITE and LINE_RX (30_encoding.md R101). -/
def argByte (arg : BitVec 32) : Byte := arg.extractLsb' 0 8

/-- The row an operation code names, its argument taken as R101 says and not yet checked. -/
def rowOf (op : BitVec 8) (arg : BitVec 32) : Option Instr :=
  match op.toNat with
  | 0x01 => some (.init arg)
  | 0x02 => some (.write (argByte arg))
  | 0x03 => some .avail
  | 0x04 => some .read
  | 0x05 => some .flush
  | 0x40 => some .step
  | 0x81 => some .rxh
  | 0x82 => some .txh
  | 0xC1 => some (.lineRx (argByte arg))
  | 0xC2 => some .lineTx
  | _ => none

/-- Decoding, total on every 40-bit word (30_encoding.md R105); every word that selects no row is reserved (R104). -/
def decode (w : OpWord) : Decoded :=
  match rowOf (opField w) (argField w) with
  | none => .reserved .unlistedOp
  | some i => if argWellFormed (opField w) (argField w) then .row i else .reserved .nonzeroArg

/-- `OP` of an instruction (30_encoding.md R102). -/
def opOf : Instr → BitVec 8
  | .init _ => 0x01
  | .write _ => 0x02
  | .avail => 0x03
  | .read => 0x04
  | .flush => 0x05
  | .step => 0x40
  | .rxh => 0x81
  | .txh => 0x82
  | .lineRx _ => 0xC1
  | .lineTx => 0xC2

/-- `ARG` of an instruction: `baud`, `zext_32(byte)` or 0 (30_encoding.md R101, R109). -/
def argOf : Instr → BitVec 32
  | .init baud => baud
  | .write b => b.zeroExtend 32
  | .avail => 0
  | .read => 0
  | .flush => 0
  | .step => 0
  | .rxh => 0
  | .txh => 0
  | .lineRx d => d.zeroExtend 32
  | .lineTx => 0

/-- The mnemonic of an instruction's row in spec/opcode_table.json (30_encoding.md R102). -/
def mnemonicOf : Instr → String
  | .init _ => "INIT"
  | .write _ => "WRITE"
  | .avail => "AVAIL"
  | .read => "READ"
  | .flush => "FLUSH"
  | .step => "STEP"
  | .rxh => "RXH"
  | .txh => "TXH"
  | .lineRx _ => "LINE_RX"
  | .lineTx => "LINE_TX"

/-- The word of an instruction, `{OP, ARG}` (30_encoding.md R100, R109). -/
def encode (i : Instr) : OpWord := opOf i ++ argOf i

/-- The instruction the decoder reads from a word of `nbits` bits numbered as spec/opcode_table.json numbers them, bit
0 the least significant bit of the 40-bit word; the bits above `nbits` are 0. A word over 40 bits is none of R102's
(30_encoding.md R108; notes/assumptions/17.md). -/
def decodeTableWord (nbits w : Nat) : Option Instr :=
  if w % 2 ^ nbits < 2 ^ 40 then
    match decode (BitVec.ofNat 40 (w % 2 ^ nbits)) with
    | .row i => some i
    | .reserved _ => none
  else none

end Sys2Proof
end

