-- ==== Sys2Proof/Machine/State.lean ====
section
/-! DEFINITION. The state of the SFB as plain data: everything 10_state.md R30 lists, the configuration, and the
model's own two fields (the schedule the step reads, and the counter of draws); the reasons a step can stop; reset. -/

namespace Sys2Proof.Machine

/-! ## Ring storage -/

/-- The storage of one ring: the slots that do not read as `Memory.unlisted`, by slot index, strictly rising
(20_memory.md R70; 10_state.md R32, R35). -/
abbrev Memory := List Host.Cell

/-- What an unlisted slot reads as: `0x00`, the reset contents under `BUF_INIT = ZERO` (10_state.md R32). Under
`UNSPECIFIED` the drawn bytes are listed at reset (`State.resetFrom`). DESIGN CHOICE, notes/assumptions/6.md. -/
def Memory.unlisted : Byte := 0x00

/-- The canonical form, for slots from `lo` up to the capacity: addresses strictly rising, none at or above `cap`, no
entry equal to what an unlisted slot reads as. -/
def Memory.wfFrom (lo cap : Nat) : Memory → Bool
  | [] => true
  | (a, v) :: m => decide (lo ≤ a) && decide (a < cap) && decide (v ≠ Memory.unlisted) && Memory.wfFrom (a + 1) cap m

/-- The canonical form of a storage of `cap` slots. -/
def Memory.wf (cap : Nat) (m : Memory) : Bool := Memory.wfFrom 0 cap m

/-- The storage whose slots from `a` on hold the given bytes. -/
def Memory.ofBytesFrom (a : Nat) : List Byte → Memory
  | [] => []
  | b :: bs => if b = Memory.unlisted then Memory.ofBytesFrom (a + 1) bs else (a, b) :: Memory.ofBytesFrom (a + 1) bs

/-- A ring: storage, `head` the next slot to write, `tail` the next slot to read (40_ring.md R130; 10_state.md R32 to
R37). The indices are numbers below the ring's capacity (R38, an invariant of the model; notes/assumptions/3.md). -/
structure Ring where
  buf : Memory
  head : Nat
  tail : Nat
deriving DecidableEq, Repr

/-- Which ring. -/
inductive RingId where
  | rx
  | tx
deriving DecidableEq, Repr

/-! ## Registers -/

/-- `CTRL`: its four 1-bit fields (10_state.md R39). -/
structure Ctrl where
  txen : Bool
  rxen : Bool
  rxie : Bool
  txie : Bool
deriving DecidableEq, Repr

/-! ## The App sequencer -/

/-- INIT's stages (43_driver.md R242). -/
inductive InitStage where
  | i1
  | i2
  | i3
  | i4
deriving DecidableEq, Repr

/-- The locals stage W1 of a WRITE binds: `e` under `HW_FIRST`, `h` and `t` under `RING_FIRST` (42_transmit.md R201). -/
inductive FirstRead where
  | hw (e : Bool)
  | ring (h t : Nat)
deriving DecidableEq, Repr

/-- The locals of a WRITE on the buffered path, beside `b` (10_state.md R48). -/
structure WriteLocals where
  e : Bool
  h : Nat
  t : Nat
  nh : Nat
deriving DecidableEq, Repr

/-- WRITE's stages, each with the locals bound when it runs (42_transmit.md R201 to R207). -/
inductive WriteStage where
  | w1
  | w2 (first : FirstRead)
  | wd (e : Bool) (h t : Nat)
  | ws (l : WriteLocals)
  | wm (l : WriteLocals)
  | wh (l : WriteLocals)
  | we (l : WriteLocals)
deriving DecidableEq, Repr

/-- AVAIL's one stage (41_receive.md R165). -/
inductive AvailStage where
  | a1
deriving DecidableEq, Repr

/-- READ's stages (41_receive.md R170, R171). -/
inductive ReadStage where
  | rd1
  | rd2 (h t : Nat)
  | rd3 (h t : Nat) (v : Byte)
deriving DecidableEq, Repr

/-- FLUSH's stages (41_receive.md R175). -/
inductive FlushStage where
  | f1
  | f2 (h : Nat)
deriving DecidableEq, Repr

/-- The App sequencer `app`: `Idle`, or `Busy(op, stage, locals)` (10_state.md R46, R48). -/
inductive App where
  | idle
  | init (stage : InitStage) (baud : Baud)
  | write (stage : WriteStage) (b : Byte)
  | avail (stage : AvailStage)
  | read (stage : ReadStage)
  | flush (stage : FlushStage)
deriving DecidableEq, Repr

/-! ## The state -/

/-- The state of the SFB (10_state.md R30). -/
structure State where
  /-- The parameters (00_scope.md R10), never changed by a step (10_state.md R53). -/
  cfg : Config
  /-- `rx_buf`, `rx_head`, `rx_tail` (R32 to R34). -/
  rx : Ring
  /-- `tx_buf`, `tx_head`, `tx_tail` (R35 to R37). -/
  tx : Ring
  /-- `CTRL` (R39). -/
  ctrl : Ctrl
  /-- `DIV`, a number below `2^DIV_W` (R44; notes/assumptions/4.md). -/
  div : Nat
  /-- `THR` (R41). -/
  thr : Byte
  /-- `THRF` (R42). -/
  thrf : Bool
  /-- `RDR` (R43). -/
  rdr : Byte
  /-- `RXF` (R43). -/
  rxf : Bool
  /-- The App sequencer (R46). -/
  app : App
  /-- The sticky mark of a refusal (R47). -/
  refused : Bool
  /-- The bytes LINE has taken from `THR`, in order (R47). -/
  lineOut : List Byte
  /-- The App's responses, in order (R47). -/
  respLog : List Response
  /-- The model's own: the operation words still to come (30_encoding.md R100's schedule; notes/assumptions/10.md). -/
  schedule : List OpWord
  /-- The model's own: how many draws of R171 the run has made (notes/assumptions/11.md). -/
  draws : Nat
deriving DecidableEq, Repr

/-! ## Stops -/

/-- Why the machine stops. The SFB itself has no fault (00_scope.md R13; 60_exceptions.md R260): the first four are
R13's "not enabled" (a hold, on which the schedule describes no run: 93_implementation_defined.md U11), written as
stuck states (notes/assumptions/8.md). Every one is safe: the model stops where it has no step. -/
inductive Fault where
  /-- Raised by STEP while `app = Idle` (43_driver.md R244). Safe. -/
  | stepNotEnabled
  /-- Raised by RXH while its guard is false, or `HANDLER_ARB` gives TXH the turn (60_exceptions.md R262, R265). Safe. -/
  | rxhNotEnabled
  /-- Raised by TXH while its guard is false, or `HANDLER_ARB` gives RXH the turn (60_exceptions.md R263, R265). Safe. -/
  | txhNotEnabled
  /-- Raised by LINE_TX while `TXEN = 0` or `THRF = 0` (42_transmit.md R220). Safe. -/
  | lineTxNotEnabled
  /-- Raised by the step when the schedule has no word left (notes/assumptions/10.md). Safe. -/
  | scheduleEnded
  /-- Raised by a slot access outside `[0, C)`, an address that does not exist (20_memory.md R70); no state that meets
  the model's invariant reaches it (10_state.md R38; notes/assumptions/13.md). Safe. -/
  | noSuchSlot (ring : RingId) (slot : Nat)
deriving DecidableEq, Repr

/-- Why the model gives no meaning. The spec's own refusal (R13: a reserved word, an issue while the App is busy) is
not here: it has an effect, the mark `refused`, and takes a next state (notes/assumptions/9.md). -/
inductive Refusal where
  /-- An instruction of the table without a meaning in this model; raised by no arm of `exec`. Safe. -/
  | notModelled (mnemonic : String)
deriving DecidableEq, Repr

/-- The outcome of a step of this machine. -/
abbrev Result := Host.Outcome State Fault Refusal

/-! ## Reset -/

/-- The values reset leaves unspecified, one draw of each: the slots of both rings (93_implementation_defined.md U1),
`THR` and `RDR` (U3), `DIV` (U2). Slots beyond the lists are drawn as `0x00`. -/
structure ResetDraws where
  rxBuf : List Byte
  txBuf : List Byte
  thr : Byte
  rdr : Byte
  div : Nat
deriving DecidableEq, Repr

/-- A ring's storage at reset: every slot `0x00` under `ZERO`, the drawn bytes under `UNSPECIFIED` (10_state.md R32). -/
def bufAtReset (init : BufInit) (cap : Nat) (drawn : List Byte) : Memory :=
  match init with
  | .zero => []
  | .unspecified => Memory.ofBytesFrom 0 (drawn.take cap)

/-- The state after reset, under the configuration `c` and with the unspecified values drawn as `d`
(70_reset_and_hazards.md R300). -/
def State.resetFrom (c : Config) (d : ResetDraws) : State where
  cfg := c
  rx := ⟨bufAtReset c.bufInit c.rxCap d.rxBuf, 0, 0⟩
  tx := ⟨bufAtReset c.bufInit c.txCap d.txBuf, 0, 0⟩
  ctrl := ⟨false, false, false, false⟩
  div := d.div % 2 ^ c.divW
  thr := d.thr
  thrf := false
  rdr := d.rdr
  rxf := false
  app := .idle
  refused := false
  lineOut := []
  respLog := []
  schedule := []
  draws := 0

/-- Reset under a configuration that 00_scope.md R7 allows; one outside it is refused (decision D2). -/
def State.resetChecked (c : Config) (d : ResetDraws) : Option State :=
  if c.wf then some (State.resetFrom c d) else none

/-- The draws of `State.reset`: all zero (DESIGN CHOICE, notes/assumptions/6.md and notes/assumptions/7.md). -/
def ResetDraws.zero : ResetDraws := ⟨[], [], 0x00, 0x00, 0⟩

/-- The machine right after reset, under the default configuration (70_reset_and_hazards.md R300). -/
def State.reset : State := State.resetFrom Config.default ResetDraws.zero

end Sys2Proof.Machine
end

