-- ==== Sys2Proof/Machine/Operands.lean ====
section
/-! DEFINITION. What the operands and results of an operation are: the first stage an issue word's argument gives
(43_driver.md R243), the sequencer's `op`, and the response words (30_encoding.md R106, R107). -/

namespace Sys2Proof.Machine

/-- The operation in progress (10_state.md R46). -/
def App.op : App → Option Op
  | .idle => none
  | .init _ _ => some .init
  | .write _ _ => some .write
  | .avail _ => some .avail
  | .read _ => some .read
  | .flush _ => some .flush

/-- `app` is `Busy`. -/
def App.isBusy : App → Bool
  | .idle => false
  | .init _ _ => true
  | .write _ _ => true
  | .avail _ => true
  | .read _ => true
  | .flush _ => true

/-- The `OP` of an operation's issue word (30_encoding.md R102), the payload of its `DONE` response (R106). -/
def opCode : Op → Byte
  | .init => 0x01
  | .write => 0x02
  | .avail => 0x03
  | .read => 0x04
  | .flush => 0x05

/-- The responses of 30_encoding.md R106. -/
inductive Resp where
  /-- INIT, WRITE and FLUSH. -/
  | done (op : Op)
  /-- AVAIL. -/
  | avail (any : Bool)
  /-- READ that returns a byte. -/
  | data (v : Byte)
  /-- READ that returns the source's `NoData`. -/
  | noData
deriving DecidableEq, Repr

/-- `KIND`, bits 15:12 of a response (30_encoding.md R106). -/
def respKind : Resp → BitVec 4
  | .done _ => 0x1
  | .avail _ => 0x2
  | .data _ => 0x3
  | .noData => 0x4

/-- `PAYLOAD`, bits 7:0 of a response (30_encoding.md R106). -/
def respPayload : Resp → Byte
  | .done op => opCode op
  | .avail any => if any then 0x01 else 0x00
  | .data v => v
  | .noData => 0x00

/-- The response word `{KIND, 0, PAYLOAD}` (30_encoding.md R106). -/
def respWord (r : Resp) : Response := (respKind r ++ (0 : BitVec 4)) ++ respPayload r

/-- The bytes that a list of response words returns as `DATA`, in order (30_encoding.md R106). -/
def dataBytes (log : List Response) : List Byte :=
  (log.filter fun r => r.extractLsb' 12 4 == respKind (.data 0)).map fun r => r.extractLsb' 0 8

/-- The byte-only view of READ's result: the byte for `DATA`, `NO_DATA_BYTE` for `NODATA`; no byte for a response of
another operation (30_encoding.md R107). -/
def byteView (c : Config) : Resp → Option Byte
  | .done _ => none
  | .avail _ => none
  | .data v => some v
  | .noData => some c.noDataByte

end Sys2Proof.Machine
end

