-- ==== Sys2Proof/Machine/Ops.lean ====
section
/-! DEFINITION. The named operations over ring storage, indices and registers: `MemRead` and `MemWrite`
(00_scope.md R12), the ring primitives of 40_ring.md, `ThrWrite` (42_transmit.md R221), `refuse`, `finish` and `emit`
(00_scope.md R12). The SFB takes no exception (60_exceptions.md R260): there is no entry or return to model; what a
handler firing needs (its guards, its entry that saves nothing) is in Machine/Events.lean. -/

namespace Sys2Proof.Machine

/-! ## Ring storage -/

/-- The byte a storage holds at a slot. -/
def Memory.get : Memory → Nat → Byte
  | [], _ => Memory.unlisted
  | (a, v) :: m, i => if i = a then v else Memory.get m i

/-- The storage with slot `i` holding `v`, in canonical form again. -/
def Memory.set : Memory → Nat → Byte → Memory
  | [], i, v => if v = Memory.unlisted then [] else [(i, v)]
  | (a, w) :: m, i, v =>
    if i < a then (if v = Memory.unlisted then (a, w) :: m else (i, v) :: (a, w) :: m)
    else if i = a then (if v = Memory.unlisted then m else (i, v) :: m)
    else (a, w) :: Memory.set m i v

/-- `MemRead(B, i, 1)`: the byte at slot `i`, for `i` in `[0, C)`; no slot outside (00_scope.md R12, 20_memory.md R70). -/
def memRead (cap : Nat) (m : Memory) (i : Nat) : Option Byte :=
  if i < cap then some (m.get i) else none

/-- `MemWrite(B, i, 1, v)`: writes slot `i`, for `i` in `[0, C)`; no slot outside (00_scope.md R12, 20_memory.md R70). -/
def memWrite (cap : Nat) (m : Memory) (i : Nat) (v : Byte) : Option Memory :=
  if i < cap then some (m.set i v) else none

/-! ## Ring primitives (40_ring.md) -/

/-- `next_C(i)` (R131). -/
def next (cap i : Nat) : Nat := (i + 1) % cap

/-- `(a - b) mod C`, the natural below `C` congruent to `a - b` (00_scope.md R11). -/
def subMod (cap a b : Nat) : Nat := (a + (cap - b % cap)) % cap

/-- The same successor done as an implementation may: in `IDX_W` bits, then "if the result equals `C` then 0" (R131). -/
def nextBits (cap : Nat) (w : Nat) (i : BitVec w) : BitVec w :=
  if (i + 1).toNat = cap then 0 else i + 1

/-- `Empty` (R132). -/
def Ring.isEmpty (r : Ring) : Bool := r.head == r.tail

/-- `Full` (R133). -/
def Ring.isFull (cap : Nat) (r : Ring) : Bool := next cap r.head == r.tail

/-- `Count`, a derived quantity for rules and claims (R134). -/
def Ring.count (cap : Nat) (r : Ring) : Nat := subMod cap r.head r.tail

/-- `Contents`, oldest first (R135). -/
def Ring.contents (cap : Nat) (r : Ring) : List Byte :=
  (List.range (r.count cap)).map fun k => r.buf.get ((r.tail + k) % cap)

/-- `Push` (R138): the slot is written, then the head advances (20_memory.md R80). `none` on a full ring, or where the
head names no slot. -/
def Ring.push (cap : Nat) (r : Ring) (v : Byte) : Option Ring :=
  if r.isFull cap then none
  else (memWrite cap r.buf r.head v).map fun m => ⟨m, next cap r.head, r.tail⟩

/-- `Pop` (R138): the slot is read, then the tail advances (20_memory.md R81). `none` on an empty ring, or where the
tail names no slot. -/
def Ring.pop (cap : Nat) (r : Ring) : Option (Byte × Ring) :=
  if r.isEmpty then none
  else (memRead cap r.buf r.tail).map fun v => (v, ⟨r.buf, r.head, next cap r.tail⟩)

/-! ## Registers, responses, bookkeeping -/

/-- `ThrWrite(v)`, the one way a byte enters the THR (42_transmit.md R221). -/
def thrWrite (v : Byte) (s : State) : State :=
  if s.thrf then
    match s.cfg.thrFullWrite with
    | .overwrite => { s with thr := v }
    | .drop => s
  else { s with thr := v, thrf := true }

/-- `stage <- S`: the App goes on at another stage (00_scope.md R12). -/
def goTo (a : App) (s : State) : State := { s with app := a }

/-- `finish(resp)`: appends the response and ends the operation; the locals are dropped (43_driver.md R245). -/
def finish (r : Response) (s : State) : State := { s with respLog := s.respLog ++ [r], app := .idle }

/-- `refuse(reason)`: `refused <- 1`, and nothing else (00_scope.md R13, 30_encoding.md R104, 43_driver.md R243). The
run goes on (DEDUCED, notes/assumptions/9.md). -/
def refuse (s : State) : State := { s with refused := true }

/-- `emit(THR)`, then `THRF <- 0`: LINE takes the byte in the THR (42_transmit.md R220). -/
def drainThr (s : State) : State := { s with lineOut := s.lineOut ++ [s.thr], thrf := false }

/-- RXH's read of `RDR`, which acknowledges the event (20_memory.md R77, 41_receive.md R162). -/
def ackRdr (s : State) : State := { s with rxf := false }

/-- LINE's write of `RDR`, with its flag (10_state.md R43). -/
def fillRdr (d : Byte) (s : State) : State := { s with rdr := d, rxf := true }

/-- A write of `rx_tail`. -/
def setRxTail (t : Nat) (s : State) : State := { s with rx := { s.rx with tail := t } }

/-- A write of `tx_tail`. -/
def setTxTail (t : Nat) (s : State) : State := { s with tx := { s.tx with tail := t } }

/-- A write of `tx_head`. -/
def setTxHead (h : Nat) (s : State) : State := { s with tx := { s.tx with head := h } }

/-- `draw {a, b}`: the free choice between two values (00_scope.md R12), `b` where the opaque
`Config.drawAdvances` says so for this draw; the counter of draws advances (notes/assumptions/11.md). -/
def drawOf (a b : Nat) (s : State) : Nat × State :=
  (if Config.drawAdvances s.draws then b else a, { s with draws := s.draws + 1 })

end Sys2Proof.Machine
end

