-- ==== Sys2Proof/Machine/Events.lean ====
section
/-! DEFINITION. Events, guards and contexts (60_exceptions.md): when each event is pending, when each handler and each
other step is enabled, the derived handler states, the end of a run. A firing is entered between two App stages, saves
nothing and restores nothing (R266, R268). -/

namespace Sys2Proof.Machine

/-- The receive-complete event is pending exactly when `RXF = 1` (10_state.md R52, 60_exceptions.md R262). -/
def rxPending (s : State) : Bool := s.rxf

/-- The transmit-ready event is pending exactly when `THRF = 0` (10_state.md R52, 60_exceptions.md R263). -/
def txPending (s : State) : Bool := !s.thrf

/-- RXH's guard: pending and enabled (60_exceptions.md R262). -/
def rxhGuard (s : State) : Bool := s.ctrl.rxie && rxPending s

/-- TXH's guard: pending and enabled (60_exceptions.md R263). -/
def txhGuard (s : State) : Bool := s.ctrl.txie && txPending s

/-- RXH may fire: its guard holds, and `HANDLER_ARB` does not give TXH the turn (60_exceptions.md R265;
notes/assumptions/12.md). -/
def rxhEnabled (s : State) : Bool :=
  rxhGuard s && !(txhGuard s && s.cfg.handlerArb == .txFirst)

/-- TXH may fire: its guard holds, and `HANDLER_ARB` does not give RXH the turn (60_exceptions.md R265;
notes/assumptions/12.md). -/
def txhEnabled (s : State) : Bool :=
  txhGuard s && !(rxhGuard s && s.cfg.handlerArb == .rxFirst)

/-- LINE_TX's guard (42_transmit.md R220). -/
def lineTxEnabled (s : State) : Bool := s.ctrl.txen && s.thrf

/-- The step of a word can happen now (30_encoding.md R103): an issue word while `app = Idle` (elsewhere it is refused),
STEP while `app` is busy, a handler firing while its guard holds and `HANDLER_ARB` leaves it the turn (60_exceptions.md
R265), LINE_TX while its guard holds, LINE_RX always (41_receive.md R160). -/
def enabled (i : Instr) (s : State) : Bool :=
  match i with
  | .init _ => !s.app.isBusy
  | .write _ => !s.app.isBusy
  | .avail => !s.app.isBusy
  | .read => !s.app.isBusy
  | .flush => !s.app.isBusy
  | .step => s.app.isBusy
  | .rxh => rxhEnabled s
  | .txh => txhEnabled s
  | .lineRx _ => true
  | .lineTx => lineTxEnabled s

/-- The guard of a word's step alone, whatever `HANDLER_ARB` says of the turn: a handler is enabled exactly when its
event is pending and enabled (60_exceptions.md R262, R263), and stays so while the other goes first (R265). -/
def guardHolds (i : Instr) (s : State) : Bool :=
  match i with
  | .init _ => !s.app.isBusy
  | .write _ => !s.app.isBusy
  | .avail => !s.app.isBusy
  | .read => !s.app.isBusy
  | .flush => !s.app.isBusy
  | .step => s.app.isBusy
  | .rxh => rxhGuard s
  | .txh => txhGuard s
  | .lineRx _ => true
  | .lineTx => lineTxEnabled s

/-- The states of the receive handler, derived from the flags (41_receive.md R161). -/
inductive RxhState where
  | rxIdle
  | rxPending
deriving DecidableEq, Repr

/-- The receive handler's state (41_receive.md R161). -/
def rxhState (s : State) : RxhState := if rxhGuard s then .rxPending else .rxIdle

/-- The states of the transmit handler, derived from the flags (42_transmit.md R210). -/
inductive TxhState where
  | txOff
  | txWait
  | txReady
deriving DecidableEq, Repr

/-- The transmit handler's state (42_transmit.md R210). -/
def txhState (s : State) : TxhState :=
  if s.ctrl.txie then (if s.thrf then .txWait else .txReady) else .txOff

/-- A quiescent state: `app = Idle`, and neither handler nor LINE_TX is enabled (60_exceptions.md R282). -/
def quiescent (s : State) : Bool :=
  !s.app.isBusy && !rxhEnabled s && !txhEnabled s && !lineTxEnabled s

/-- What is observed of a run that has ended (60_exceptions.md R282). -/
structure Observation where
  respLog : List Response
  lineOut : List Byte
  refused : Bool
  rxContents : List Byte
  txContents : List Byte
deriving DecidableEq, Repr

/-- The observation of a state (60_exceptions.md R282). -/
def observe (s : State) : Observation :=
  ⟨s.respLog, s.lineOut, s.refused, s.rx.contents s.cfg.rxCap, s.tx.contents s.cfg.txCap⟩

end Sys2Proof.Machine
end

