-- ==== Sys2Proof/Machine/Receive.lean ====
section
/-! DEFINITION. The receive path (41_receive.md): LINE_RX, RXH, and the stages of AVAIL, READ and FLUSH. -/

namespace Sys2Proof.Machine

/-- LINE_RX: LINE delivers `d` (R160). Always enabled. -/
def execLineRx (d : Byte) (s : State) : Result :=
  if s.ctrl.rxen then
    if s.rxf then
      match s.cfg.overrunPolicy with
      | .overwrite => .next (fillRdr d s)
      | .dropNew => .next s
    else .next (fillRdr d s)
  else .next s

/-- The body of RXH (R162), entered with its guard true: `d <- RDR` acknowledges the event, then the byte is pushed, or
dropped where the ring is full. -/
def rxhBody (s : State) : Result :=
  if s.rx.isFull s.cfg.rxCap then .next (ackRdr s)
  else
    match memWrite s.cfg.rxCap s.rx.buf s.rx.head s.rdr with
    | some m => .next { ackRdr s with rx := ⟨m, next s.cfg.rxCap s.rx.head, s.rx.tail⟩ }
    | none => .fault (.noSuchSlot .rx s.rx.head)

/-- RXH, one receive handler firing (R162). A hold while not enabled. -/
def execRxh (s : State) : Result :=
  if rxhEnabled s then rxhBody s else .fault .rxhNotEnabled

/-- AVAIL stage A1 (R165): true iff `head != tail`. -/
def stageA1 (s : State) : Result :=
  .next (finish (respWord (.avail (!s.rx.isEmpty))) s)

/-- READ stage RD1 (R170; R171 under `INVERTED`): the availability test. -/
def stageRd1 (s : State) : Result :=
  let noData : Bool :=
    match s.cfg.readPolarity with
    | .contract => s.rx.isEmpty
    | .inverted => !s.rx.isEmpty
  if noData then .next (finish (respWord .noData) s)
  else .next (goTo (.read (.rd2 s.rx.head s.rx.tail)) s)

/-- READ stage RD2 (R170, R171): `v <- MemRead(rx_buf, t, 1)`. -/
def stageRd2 (h t : Nat) (s : State) : Result :=
  match memRead s.cfg.rxCap s.rx.buf t with
  | some v => .next (goTo (.read (.rd3 h t v)) s)
  | none => .fault (.noSuchSlot .rx t)

/-- READ stage RD3: `rx_tail <- next(t)` (R170), or under `INVERTED` a draw from `{t, next(t)}` (R171), and the byte is
returned. -/
def stageRd3 (t : Nat) (v : Byte) (s : State) : Result :=
  match s.cfg.readPolarity with
  | .contract => .next (finish (respWord (.data v)) (setRxTail (next s.cfg.rxCap t) s))
  | .inverted =>
    .next (finish (respWord (.data v))
      (setRxTail (drawOf t (next s.cfg.rxCap t) s).1 (drawOf t (next s.cfg.rxCap t) s).2))

/-- FLUSH stage F1 (R175): `h <- rx_head`, read exactly once. -/
def stageF1 (s : State) : Result := .next (goTo (.flush (.f2 s.rx.head)) s)

/-- FLUSH stage F2 (R175): `rx_tail <- h`, the captured value. -/
def stageF2 (h : Nat) (s : State) : Result :=
  .next (finish (respWord (.done .flush)) (setRxTail h s))

end Sys2Proof.Machine
end

