-- ==== Sys2Proof/Machine/Flags.lean ====
section
/-! DEFINITION. The flags: the four `CTRL` fields, each written alone (20_memory.md R75, R86), and the `CTRL` and
`STATUS` register views (10_state.md R39, R40). The SFB has no condition codes and no arithmetic flags (R51). -/

namespace Sys2Proof.Machine

/-- `TXEN <- 1` (43_driver.md R248). -/
def setTxen (s : State) : State := { s with ctrl := { s.ctrl with txen := true } }

/-- `RXEN <- 1` (43_driver.md R249). -/
def setRxen (s : State) : State := { s with ctrl := { s.ctrl with rxen := true } }

/-- `RXIE <- 1` (43_driver.md R250). -/
def setRxie (s : State) : State := { s with ctrl := { s.ctrl with rxie := true } }

/-- A write of `TXIE`: set by WRITE stage WE, cleared by TXH (10_state.md R39; 20_memory.md R86). -/
def putTxie (b : Bool) (s : State) : State := { s with ctrl := { s.ctrl with txie := b } }

/-- The `CTRL` register view: bit 0 `TXEN`, bit 1 `RXEN`, bit 2 `RXIE`, bit 3 `TXIE`, bits 4 and up 0 (10_state.md R39). -/
def Ctrl.view (c : Ctrl) : Nat :=
  c.txen.toNat + 2 * c.rxen.toNat + 4 * c.rxie.toNat + 8 * c.txie.toNat

/-- The `CTRL` fields a view value gives; bits 4 and up ignore the write (10_state.md R39). -/
def Ctrl.ofView (v : Nat) : Ctrl := ⟨v.testBit 0, v.testBit 1, v.testBit 2, v.testBit 3⟩

/-- The `STATUS` register view: bit 0 `THRF`, bit 1 `RXF`, bits 2 and up 0 (10_state.md R40). -/
def statusView (s : State) : Nat := s.thrf.toNat + 2 * s.rxf.toNat

end Sys2Proof.Machine
end

