-- ==== Sys2Proof/Machine/Transmit.lean ====
section
/-! DEFINITION. The transmit path (42_transmit.md): the stages of WRITE, TXH and LINE_TX. -/

namespace Sys2Proof.Machine

/-- WRITE stage W1 (R201): the first read of the direct-path test, chosen by `DIRECT_CHECK_ORDER`. -/
def stageW1 (b : Byte) (s : State) : Result :=
  match s.cfg.directCheckOrder with
  | .hwFirst => .next (goTo (.write (.w2 (.hw (!s.thrf))) b) s)
  | .ringFirst => .next (goTo (.write (.w2 (.ring s.tx.head s.tx.tail)) b) s)

/-- The locals `e`, `h`, `t` of a WRITE once stage W2 has made the read W1 did not (R202; notes/assumptions/16.md). -/
def directTest (first : FirstRead) (s : State) : Bool × Nat × Nat :=
  match first with
  | .hw e => (e, s.tx.head, s.tx.tail)
  | .ring h t => (!s.thrf, h, t)

/-- WRITE stage W2 (R202): the second read and the path choice. -/
def stageW2 (first : FirstRead) (b : Byte) (s : State) : Result :=
  match directTest first s with
  | (e, h, t) =>
    if e && h == t then .next (goTo (.write (.wd e h t) b) s)
    else .next (goTo (.write (.ws ⟨e, h, t, next s.cfg.txCap h⟩) b) s)

/-- WRITE stage WD (R203): the direct path. -/
def stageWd (b : Byte) (s : State) : Result :=
  .next (finish (respWord (.done .write)) (thrWrite b s))

/-- WRITE stage WS (R204): the spin for a free slot. A spin is a step and leaves the state unchanged (43_driver.md R244;
notes/assumptions/15.md). -/
def stageWs (l : WriteLocals) (b : Byte) (s : State) : Result :=
  if l.nh ≠ s.tx.tail then .next (goTo (.write (.wm { l with t := s.tx.tail }) b) s)
  else .next s

/-- WRITE stage WM (R205): the store, before the head advance (20_memory.md R80). -/
def stageWm (l : WriteLocals) (b : Byte) (s : State) : Result :=
  match memWrite s.cfg.txCap s.tx.buf l.h b with
  | some m => .next (goTo (.write (.wh l) b) { s with tx := { s.tx with buf := m } })
  | none => .fault (.noSuchSlot .tx l.h)

/-- WRITE stage WH (R206): publishing the byte. -/
def stageWh (l : WriteLocals) (b : Byte) (s : State) : Result :=
  .next (goTo (.write (.we l) b) (setTxHead l.nh s))

/-- WRITE stage WE (R207): arming the drain. -/
def stageWe (s : State) : Result :=
  .next (finish (respWord (.done .write)) (putTxie true s))

/-- The body of TXH (R212), entered with its guard true: the byte at the tail goes to the THR, the tail advances, and
the handler disables itself where that leaves the ring empty. It does not test for an empty ring before it reads. -/
def txhBody (s : State) : Result :=
  match memRead s.cfg.txCap s.tx.buf s.tx.tail with
  | none => .fault (.noSuchSlot .tx s.tx.tail)
  | some v =>
    if next s.cfg.txCap s.tx.tail = s.tx.head then
      .next (putTxie false (setTxTail (next s.cfg.txCap s.tx.tail) (thrWrite v s)))
    else .next (setTxTail (next s.cfg.txCap s.tx.tail) (thrWrite v s))

/-- TXH, one transmit handler firing (R212). A hold while not enabled. -/
def execTxh (s : State) : Result :=
  if txhEnabled s then txhBody s else .fault .txhNotEnabled

/-- LINE_TX: LINE takes the byte in the THR onto the line (R220). A hold while not enabled. -/
def execLineTx (s : State) : Result :=
  if lineTxEnabled s then .next (drainThr s) else .fault .lineTxNotEnabled

end Sys2Proof.Machine
end

