-- ==== Sys2Proof/Machine/Driver.lean ====
section
/-! DEFINITION. The App sequencer (43_driver.md): issue, STEP, and INIT's stages. -/

namespace Sys2Proof.Machine

/-- Issue (R243): from `Idle` to the operation's first stage; refused while another operation is in progress. -/
def issue (first : App) (s : State) : Result :=
  match s.app with
  | .idle => .next (goTo first s)
  | .init _ _ => .next (refuse s)
  | .write _ _ => .next (refuse s)
  | .avail _ => .next (refuse s)
  | .read _ => .next (refuse s)
  | .flush _ => .next (refuse s)

/-- INIT, issued (R243, R246). -/
def execInit (baud : Baud) (s : State) : Result := issue (.init .i1 baud) s

/-- WRITE, issued (R243; 42_transmit.md R200). -/
def execWrite (b : Byte) (s : State) : Result := issue (.write .w1 b) s

/-- AVAIL, issued (R243; 41_receive.md R165). -/
def execAvail (s : State) : Result := issue (.avail .a1) s

/-- READ, issued (R243; 41_receive.md R170). -/
def execRead (s : State) : Result := issue (.read .rd1) s

/-- FLUSH, issued (R243; 41_receive.md R175). -/
def execFlush (s : State) : Result := issue (.flush .f1) s

/-- INIT stage I1 (R247): `DIV <- divisor_of(baud)`. -/
def stageI1 (baud : Baud) (s : State) : Result :=
  .next (goTo (.init .i2 baud) { s with div := (Config.divisorOf s.cfg.divW baud).toNat })

/-- INIT stage I2 (R248): `TXEN <- 1`. -/
def stageI2 (baud : Baud) (s : State) : Result := .next (goTo (.init .i3 baud) (setTxen s))

/-- INIT stage I3 (R249): `RXEN <- 1`. -/
def stageI3 (baud : Baud) (s : State) : Result := .next (goTo (.init .i4 baud) (setRxen s))

/-- INIT stage I4 (R250): `RXIE <- 1`, and INIT is done. -/
def stageI4 (s : State) : Result := .next (finish (respWord (.done .init)) (setRxie s))

/-- STEP (R244): runs the current stage of the current operation (R242). A hold while `app = Idle`. -/
def execStep (s : State) : Result :=
  match s.app with
  | .idle => .fault .stepNotEnabled
  | .init .i1 baud => stageI1 baud s
  | .init .i2 baud => stageI2 baud s
  | .init .i3 baud => stageI3 baud s
  | .init .i4 _ => stageI4 s
  | .write .w1 b => stageW1 b s
  | .write (.w2 first) b => stageW2 first b s
  | .write (.wd _ _ _) b => stageWd b s
  | .write (.ws l) b => stageWs l b s
  | .write (.wm l) b => stageWm l b s
  | .write (.wh l) b => stageWh l b s
  | .write (.we _) _ => stageWe s
  | .avail .a1 => stageA1 s
  | .read .rd1 => stageRd1 s
  | .read (.rd2 h t) => stageRd2 h t s
  | .read (.rd3 _ t v) => stageRd3 t v s
  | .flush .f1 => stageF1 s
  | .flush (.f2 h) => stageF2 h s

end Sys2Proof.Machine
end

