-- ==== Sys2Proof/Machine/Dispatch.lean ====
section
/-! DEFINITION. The meaning of each instruction of spec/opcode_table.json, one arm each. -/

namespace Sys2Proof.Machine

def exec (i : Instr) (s : State) : Host.Outcome State Fault Refusal :=
  match i with
  | .init baud => Sys2Proof.Machine.execInit baud s
  | .write b => Sys2Proof.Machine.execWrite b s
  | .avail => Sys2Proof.Machine.execAvail s
  | .read => Sys2Proof.Machine.execRead s
  | .flush => Sys2Proof.Machine.execFlush s
  | .step => Sys2Proof.Machine.execStep s
  | .rxh => Sys2Proof.Machine.execRxh s
  | .txh => Sys2Proof.Machine.execTxh s
  | .lineRx d => Sys2Proof.Machine.execLineRx d s
  | .lineTx => Sys2Proof.Machine.execLineTx s

end Sys2Proof.Machine
end

