-- ==== Sys2Proof/Machine/Schedule.lean ====
section
/-! DEFINITION. How a word of the schedule runs: a word that selects a row runs that instruction; a reserved word is
refused (30_encoding.md R104). And how a word comes to stand next in the schedule. -/

namespace Sys2Proof.Machine

/-- The next word of the schedule is taken from it (30_encoding.md R100). -/
def takeWord (rest : List OpWord) (s : State) : State := { s with schedule := rest }

/-- One operation word's step (30_encoding.md R102, R104, R105). -/
def execWord (w : OpWord) (s : State) : Result :=
  match decode w with
  | .row i => exec i s
  | .reserved _ => .next (refuse s)

/-- One step: the next word of the schedule, taken from it, runs; a schedule with no word left has no step
(notes/assumptions/10.md). -/
def runNext (s : State) : Result :=
  match s.schedule with
  | [] => .fault .scheduleEnded
  | w :: rest => execWord w (takeWord rest s)

/-- The state with a word of the table placed next in the schedule, its bits numbered as the table numbers them
(notes/assumptions/17.md). -/
def placeWord (s : State) (nbits w : Nat) : State :=
  { s with schedule := BitVec.ofNat 40 (w % 2 ^ nbits) :: s.schedule }

end Sys2Proof.Machine
end

