-- ==== Sys2Proof/Machine/Step.lean ====
section
/-! DEFINITION. The step of the machine: the next operation word of the schedule runs. -/

namespace Sys2Proof.Machine

/-- One step of the SFB: the agent and the transition the schedule's next word names (30_encoding.md R100,
60_exceptions.md R266). -/
def step (s : State) : Host.Outcome State Fault Refusal := runNext s

/-- The state in which the very next step runs the given word of the table (notes/assumptions/10.md). -/
def State.withFetchWord (s : State) (nbits w : Nat) : State := placeWord s nbits w

end Sys2Proof.Machine
end

