-- ==== Sys2Proof/Machine/Inspect.lean ====
section
/-! DEFINITION. The inspection view of the registers by number (10_state.md R45). No operation of the SFB uses it: it
is for traces, inspection and claims. A read returns a value and no state, so it has no side effect. -/

namespace Sys2Proof.Machine

/-- The registers of 10_state.md R45. -/
inductive Reg where
  | data
  | status
  | ctrl
  | div
  | rxHead
  | rxTail
  | txHead
  | txTail
deriving DecidableEq, Repr

/-- The register of a number (10_state.md R45). -/
def Reg.ofNumber : Nat → Option Reg
  | 0 => some .data
  | 1 => some .status
  | 2 => some .ctrl
  | 3 => some .div
  | 4 => some .rxHead
  | 5 => some .rxTail
  | 6 => some .txHead
  | 7 => some .txTail
  | _ => none

/-- An inspection read: `DATA` reads `RDR`, and does not clear `RXF` (10_state.md R45). -/
def inspectRead (r : Reg) (s : State) : Nat :=
  match r with
  | .data => s.rdr.toNat
  | .status => statusView s
  | .ctrl => s.ctrl.view
  | .div => s.div
  | .rxHead => s.rx.head
  | .rxTail => s.rx.tail
  | .txHead => s.tx.head
  | .txTail => s.tx.tail

/-- An inspection write: `DATA` writes `THR`, through the one way a byte enters it (42_transmit.md R221); `CTRL` takes
bits 3:0; `DIV` takes `DIV_W` bits; a read-only register ignores the write (10_state.md R39, R40, R45; DEDUCED,
notes/assumptions/14.md). -/
def inspectWrite (r : Reg) (v : Nat) (s : State) : State :=
  match r with
  | .data => thrWrite (BitVec.ofNat 8 v) s
  | .status => s
  | .ctrl => { s with ctrl := Ctrl.ofView v }
  | .div => { s with div := v % 2 ^ s.cfg.divW }
  | .rxHead => s
  | .rxTail => s
  | .txHead => s
  | .txTail => s

end Sys2Proof.Machine
end

