-- ==== Sys2Proof/Machine/Runs.lean ====
section
/-! DEFINITION. Runs: a sequence of transitions (60_exceptions.md R266), weak fairness (R270), the end of a run (R282),
and the schedule notations CALL, RECV and TICK (30_encoding.md R110). -/

namespace Sys2Proof.Machine

/-- The transitions of a list of instructions, in order, up to the first stop. -/
def execAll : List Instr → State → Result
  | [], s => .next s
  | i :: is, s =>
    match exec i s with
    | .next t => execAll is t
    | .fault r => .fault r
    | .refused r => .refused r

/-- A finite schedule of instructions has ended: it is a run, and its last state is quiescent (60_exceptions.md R282). -/
def runEnds (is : List Instr) (s : State) : Bool :=
  match execAll is s with
  | .next t => quiescent t
  | .fault _ => false
  | .refused _ => false

/-- An infinite run: at every point the word's step happens (60_exceptions.md R266). -/
def IsRun (words : Nat → OpWord) (states : Nat → State) : Prop :=
  ∀ n, execWord (words n) (states n) = .next (states (n + 1))

/-- An agent whose step `i` stays enabled from some point on takes it later. A handler is enabled while its guard holds,
even while `HANDLER_ARB` gives the other the turn (60_exceptions.md R262, R263, R265): being passed over for ever is unfair. -/
def FairFor (i : Instr) (words : Nat → OpWord) (states : Nat → State) : Prop :=
  ∀ n, (∀ m, n ≤ m → guardHolds i (states m) = true) → ∃ m, n ≤ m ∧ decode (words m) = .row i

/-- Weak fairness for the App, RXH and TXH, none for LINE (60_exceptions.md R270; DEDUCED, notes/assumptions/19.md). -/
def WeaklyFair (words : Nat → OpWord) (states : Nat → State) : Prop :=
  FairFor .step words states ∧ FairFor .rxh words states ∧ FairFor .txh words states

/-! ## Schedule notations (30_encoding.md R110) -/

/-- `RECV <byte>`. -/
def recvWords (d : Byte) : List Instr := [.lineRx d, .rxh]

/-- `TICK`: LINE_TX, then TXH if TXH's guard holds after it. -/
def tickWords (s : State) : List Instr :=
  match exec .lineTx s with
  | .next t => if txhGuard t then [.lineTx, .txh] else [.lineTx]
  | .fault _ => [.lineTx]
  | .refused _ => [.lineTx]

/-- STEP repeated until `app = Idle`, at most `fuel` of them; `none` where that is not reached. -/
def stepsToIdle : Nat → State → Option (List Instr)
  | 0, s => if s.app.isBusy then none else some []
  | fuel + 1, s =>
    if s.app.isBusy then
      match exec .step s with
      | .next t => (stepsToIdle fuel t).map fun is => .step :: is
      | .fault _ => none
      | .refused _ => none
    else some []

/-- `CALL <op> [arg]`: the issue word, then STEP until `app = Idle`. Where WRITE spins no `fuel` is enough: the
expansion is infinite (R110; notes/assumptions/18.md). -/
def callWords (fuel : Nat) (i : Instr) (s : State) : Option (List Instr) :=
  match exec i s with
  | .next t => (stepsToIdle fuel t).map fun is => i :: is
  | .fault _ => none
  | .refused _ => none

end Sys2Proof.Machine
end

