-- ==== Sys2Proof/Machine/Trace.lean ====
section
/-! DEFINITION. The trace syntax of 30_encoding.md R109, one operation word a line: notation only, which no step of the
machine reads. A line is a list of characters (notes/assumptions/20.md). -/

namespace Sys2Proof.Machine

/-- What a line of a trace is. -/
inductive TraceLine where
  /-- Blank, or a comment only. -/
  | blank
  | word (w : OpWord)
  /-- No line of R109's syntax. -/
  | malformed
deriving DecidableEq, Repr

/-- The line less its comment, from `;` to the end (R109). -/
def uncommented (line : List Char) : List Char := line.takeWhile fun c => c != ';'

/-- The tokens of a line, split at spaces and tabs; `cur` is the token being read, reversed. -/
def tokensFrom (cur : List Char) : List Char → List (List Char)
  | [] => if cur.isEmpty then [] else [cur.reverse]
  | c :: cs =>
    if c == ' ' || c == '\t' then
      (if cur.isEmpty then tokensFrom [] cs else cur.reverse :: tokensFrom [] cs)
    else tokensFrom (c :: cur) cs

/-- The value of a digit in a base up to 16. -/
def digitValue (base : Nat) (c : Char) : Option Nat :=
  let v : Nat :=
    if 48 ≤ c.toNat ∧ c.toNat ≤ 57 then c.toNat - 48
    else if 65 ≤ c.toNat ∧ c.toNat ≤ 70 then c.toNat - 55
    else if 97 ≤ c.toNat ∧ c.toNat ≤ 102 then c.toNat - 87
    else 16
  if v < base then some v else none

/-- The number of a list of digits, after `acc`. -/
def numberFrom (base acc : Nat) : List Char → Option Nat
  | [] => some acc
  | c :: cs =>
    match digitValue base c with
    | some v => numberFrom base (acc * base + v) cs
    | none => none

/-- A number, decimal, or hexadecimal with `0x` (R109). -/
def number : List Char → Option Nat
  | [] => none
  | '0' :: 'x' :: d :: ds => numberFrom 16 0 (d :: ds)
  | d :: ds => numberFrom 10 0 (d :: ds)

/-- The mnemonics that stand alone on a line (R109). -/
def plainMnemonic (m : List Char) : Option Instr :=
  if m = ['A', 'V', 'A', 'I', 'L'] then some .avail
  else if m = ['R', 'E', 'A', 'D'] then some .read
  else if m = ['F', 'L', 'U', 'S', 'H'] then some .flush
  else if m = ['S', 'T', 'E', 'P'] then some .step
  else if m = ['R', 'X', 'H'] then some .rxh
  else if m = ['T', 'X', 'H'] then some .txh
  else if m = ['L', 'I', 'N', 'E', '_', 'T', 'X'] then some .lineTx
  else none

/-- The mnemonics that take a number (R109): a `baud` of 32 bits, a byte of 8. -/
def argMnemonic (m : List Char) (n : Nat) : Option Instr :=
  if m = ['I', 'N', 'I', 'T'] then (if n < 2 ^ 32 then some (.init (BitVec.ofNat 32 n)) else none)
  else if m = ['W', 'R', 'I', 'T', 'E'] then (if n < 2 ^ 8 then some (.write (BitVec.ofNat 8 n)) else none)
  else if m = ['L', 'I', 'N', 'E', '_', 'R', 'X'] then (if n < 2 ^ 8 then some (.lineRx (BitVec.ofNat 8 n)) else none)
  else none

/-- The line of an instruction, or a malformed one. -/
def traceWord : Option Instr → TraceLine
  | some i => .word (encode i)
  | none => .malformed

/-- One line of a trace (R109). -/
def parseLine (line : List Char) : TraceLine :=
  match tokensFrom [] (uncommented line) with
  | [] => .blank
  | [m] => traceWord (plainMnemonic m)
  | [m, n] => traceWord ((number n).bind (argMnemonic m))
  | _ => .malformed

/-- The words of a trace's lines, in order; `none` where a line is malformed. -/
def parseTrace : List (List Char) → Option (List OpWord)
  | [] => some []
  | line :: rest =>
    match parseLine line with
    | .blank => parseTrace rest
    | .word w => (parseTrace rest).map fun ws => w :: ws
    | .malformed => none

end Sys2Proof.Machine
end

