-- ==== Sys2Proof/Safety.lean ====
section
/-! DEFINITION. The terms claims use: the model's invariant, the hazards of 70_reset_and_hazards.md R312 and R313 and
what a run free of them is, and what a run stores, sends and reads. -/

namespace Sys2Proof.Machine

/-! ## The invariant -/

/-- A ring of capacity `cap` is in order: its indices name slots (10_state.md R38), its storage is canonical. -/
def Ring.wf (cap : Nat) (r : Ring) : Bool :=
  decide (r.head < cap) && decide (r.tail < cap) && r.buf.wf cap

/-- The captured locals of a WRITE on the buffered path, while the head still is the captured one (42_transmit.md R202,
R205: only the App writes `tx_head`). -/
def writeLocalsOk (s : State) (l : WriteLocals) : Bool :=
  l.h == s.tx.head && l.nh == next s.cfg.txCap l.h && decide (l.t < s.cfg.txCap)

/-- The App's locals agree with the elements only the App writes (10_state.md R48, R49), and with what RXH leaves alone:
the slot a READ is reading (41_receive.md R170). -/
def appOk (s : State) : Bool :=
  match s.app with
  | .idle => true
  | .init _ _ => true
  | .write .w1 _ => true
  | .write (.w2 (.hw _)) _ => true
  | .write (.w2 (.ring h t)) _ => h == s.tx.head && decide (t < s.cfg.txCap)
  | .write (.wd e h t) _ => e && h == t && h == s.tx.head
  | .write (.ws l) _ => writeLocalsOk s l
  | .write (.wm l) _ => writeLocalsOk s l
  | .write (.wh l) b => writeLocalsOk s l && s.tx.buf.get l.h == b
  | .write (.we l) _ => l.nh == s.tx.head && l.nh == next s.cfg.txCap l.h && decide (l.t < s.cfg.txCap)
  | .avail _ => true
  | .read .rd1 => true
  | .read (.rd2 h t) =>
    t == s.rx.tail && decide (h < s.cfg.rxCap) && (s.cfg.readPolarity == .inverted || !s.rx.isEmpty)
  | .read (.rd3 h t v) =>
    t == s.rx.tail && decide (h < s.cfg.rxCap)
      && (s.cfg.readPolarity == .inverted || (!s.rx.isEmpty && s.rx.buf.get t == v))
  | .flush .f1 => true
  | .flush (.f2 h) => decide (h < s.cfg.rxCap)

/-- The invariant every step keeps: the configuration is one 00_scope.md R7 allows, every index is below its capacity
(10_state.md R38), the storages are canonical, `DIV` has `DIV_W` bits (R44), and the App's locals agree with the state. -/
abbrev Consistent (s : State) : Prop :=
  s.cfg.wf = true ∧ s.rx.wf s.cfg.rxCap = true ∧ s.tx.wf s.cfg.txCap = true ∧ s.div < 2 ^ s.cfg.divW ∧ appOk s = true

/-! ## Hazards -/

/-- No stale byte can be sent: `TXIE = 1` only over a ring that holds bytes, and the WRITE in progress will find the
ring as its path needs it (42_transmit.md R205, R208; 70_reset_and_hazards.md R312). -/
def noStale (s : State) : Bool :=
  (!s.ctrl.txie || !s.tx.isEmpty) &&
  match s.app with
  | .write (.w2 (.ring h t)) _ => h != t || s.tx.isEmpty
  | .write (.wd _ _ _) _ => s.tx.isEmpty
  | .write (.wm l) _ => l.nh != s.tx.tail
  | .write (.wh l) _ => l.nh != s.tx.tail
  | .write (.we _) _ => !s.tx.isEmpty
  | _ => true

/-- The transition is none of the two hazards' triggers: no TXH firing that leaves `tx_tail = tx_head` between a WRITE's
stages WH and WE (70_reset_and_hazards.md R312's condition for absence), and no direct write that meets `THRF = 1`
(R313's effect). -/
def hazardFree (i : Instr) (s : State) : Bool :=
  match i, s.app with
  | .txh, .write (.we _) _ => !(next s.cfg.txCap s.tx.tail == s.tx.head)
  | .step, .write (.wd _ _ _) _ => !s.thrf
  | _, _ => true

/-- A check that holds of every transition of a run. -/
def alongRun (p : Instr → State → Bool) : List Instr → State → Bool
  | [], _ => true
  | i :: is, s =>
    p i s &&
      match exec i s with
      | .next t => alongRun p is t
      | .fault _ => true
      | .refused _ => true

/-- A safe run: one that meets no hazard. -/
def safeRun (is : List Instr) (s : State) : Bool := alongRun hazardFree is s

/-! ## What a run stores and sends -/

/-- The bytes a run collects, transition by transition. -/
def collect (f : Instr → State → List Byte) : List Instr → State → List Byte
  | [], _ => []
  | i :: is, s =>
    f i s ++
      match exec i s with
      | .next t => collect f is t
      | .fault _ => []
      | .refused _ => []

/-- The byte an RXH firing stores: none where the ring is full (41_receive.md R162). -/
def rxStoredBy (i : Instr) (s : State) : List Byte :=
  match i with
  | .rxh => if s.rx.isFull s.cfg.rxCap then [] else [s.rdr]
  | _ => []

/-- The byte a WRITE hands over: to the THR at WD (42_transmit.md R203), to the ring at WH (R206). -/
def acceptedBy (i : Instr) (s : State) : List Byte :=
  match i, s.app with
  | .step, .write (.wd _ _ _) b => [b]
  | .step, .write (.wh _) b => [b]
  | _, _ => []

/-- What is on its way out, oldest first: the bytes on the line, the byte in the THR, the bytes of the TX ring. -/
def sentAndQueued (s : State) : List Byte :=
  s.lineOut ++ (if s.thrf then [s.thr] else []) ++ s.tx.contents s.cfg.txCap

/-! ## Comparing runs -/

/-- The next state of an outcome, changed. -/
def mapNext (f : State → State) : Result → Result
  | .next s => .next (f s)
  | .fault r => .fault r
  | .refused r => .refused r

/-- The state less the registers no rule reads in it: `DIV` (10_state.md R44), `THR` while `THRF = 0` (R41), `RDR` while
`RXF = 0` (93_implementation_defined.md U3). -/
def hideUnread (s : State) : State :=
  { s with div := 0, thr := if s.thrf then s.thr else 0, rdr := if s.rxf then s.rdr else 0 }

end Sys2Proof.Machine
end

