-- ==== Sys2Proof/Certificates/Slice0/Obligations.lean ====
section
/-! DEFINITION. What is claimed of the SFB: the statements for the provers. Each docstring names the rules of spec/ it
formalises. -/

open Sys2Proof Sys2Proof.Machine

/-! ## Encoding -/

/-- Words written out from 30_encoding.md R102 and R109 (95_test_vectors.md section 2.2) decode as that section says. -/
def Obligations.SpecWordsDecode : Prop :=
  decode 0x010001C200 = .row (.init 115200) ∧ decode 0x01FFFFFFFF = .row (.init 4294967295) ∧
  decode 0x0200000041 = .row (.write 0x41) ∧ decode 0x0200000141 = .reserved .nonzeroArg ∧
  decode 0x0300000000 = .row .avail ∧ decode 0x0300000001 = .reserved .nonzeroArg ∧
  decode 0x0400000000 = .row .read ∧ decode 0x0500000000 = .row .flush ∧
  decode 0x4000000000 = .row .step ∧ decode 0x8100000000 = .row .rxh ∧ decode 0x8200000000 = .row .txh ∧
  decode 0xC1000000FF = .row (.lineRx 0xFF) ∧ decode 0xC200000000 = .row .lineTx ∧
  decode 0x0000000000 = .reserved .unlistedOp ∧ decode 0x0600000000 = .reserved .unlistedOp ∧
  decode 0xFF00000000 = .reserved .unlistedOp ∧ decode 0xC100000100 = .reserved .nonzeroArg

/-- Decoding the word of an instruction gives that instruction, whatever its operand (30_encoding.md R100 to R102). -/
def Obligations.DecodeOfEncode : Prop := ∀ i : Instr, decode (encode i) = .row i

/-- Every 40-bit word either decodes to one instruction, whose word it is and whose row is the one row of the table it
selects, or is reserved and selects no row (30_encoding.md R105). -/
def Obligations.EveryWordIsOneRowOrReserved : Prop :=
  ∀ w : OpWord,
    (∃ i r, decode w = .row i ∧ encode i = w ∧ opcodeTable.filter (fun q => q.selects w) = [r] ∧
      r.mnemonic = mnemonicOf i) ∨
    (∃ why, decode w = .reserved why ∧ opcodeTable.filter (fun q => q.selects w) = [])

/-! ## The step -/

/-- A word that selects no row of the table is refused: `refused <- 1`, and the word has no other effect
(30_encoding.md R104). That a refusal takes a next state is the model's reading (notes/assumptions/9.md); the schedule the
word is gone from is the model's own field (notes/assumptions/10.md). -/
def Obligations.ReservedWordOnlyMarksRefusal : Prop :=
  ∀ (s : State) (w : OpWord) (rest : List OpWord),
    s.schedule = w :: rest → (∀ r ∈ opcodeTable, r.selects w = false) →
      step s = .next { s with schedule := rest, refused := true }

/-- A step runs the decoded instruction: the next word of the schedule, taken from it, is executed. A word placed by
`withFetchWord` is the next one. A schedule with no word left has no step. The schedule as a field of the state is the
model's choice (notes/assumptions/10.md). -/
def Obligations.StepRunsScheduledInstruction : Prop :=
  (∀ (s : State) (w : OpWord) (rest : List OpWord) (i : Instr),
    s.schedule = w :: rest → decode w = .row i → step s = exec i { s with schedule := rest }) ∧
  (∀ (s : State) (i : Instr), step (s.withFetchWord 40 (encode i).toNat) = exec i s) ∧
  (∀ s : State, s.schedule = [] → step s = .fault .scheduleEnded)

/-- A step never changes the configuration (10_state.md R53), and takes exactly one word from the schedule. -/
def Obligations.StepKeepsConfigAndTakesOneWord : Prop :=
  ∀ s t : State, step s = .next t → t.cfg = s.cfg ∧ ∃ w, s.schedule = w :: t.schedule

/-- For the words that are not issues, the step happens exactly when it is enabled, and is a hold with its own name
otherwise; an issue that is not enabled is refused (30_encoding.md R103, 00_scope.md R13). `enabled` includes the turn that
`HANDLER_ARB` gives (60_exceptions.md R265): that the handler passed over is held is the model's reading
(notes/assumptions/12.md). That a hold is a named stop is its choice (notes/assumptions/8.md), and that a refusal takes a
next state its reading (notes/assumptions/9.md). -/
def Obligations.StepsHappenExactlyWhenEnabled : Prop :=
  ∀ (s : State) (i : Instr), Consistent s →
    (i.cls ≠ .issue → ((∃ t, exec i s = .next t) ↔ enabled i s = true)) ∧
    (i.cls = .issue → enabled i s = false → exec i s = .next { s with refused := true }) ∧
    (s.app = .idle → exec .step s = .fault .stepNotEnabled) ∧
    (enabled .rxh s = false → exec .rxh s = .fault .rxhNotEnabled) ∧
    (enabled .txh s = false → exec .txh s = .fault .txhNotEnabled) ∧
    (enabled .lineTx s = false → exec .lineTx s = .fault .lineTxNotEnabled)

/-! ## Reset -/

/-- What reset leaves, for every configuration and every draw of the unspecified values (70_reset_and_hazards.md R300):
each unspecified element holds its draw, and a ring slot under `UNSPECIFIED` the byte drawn for it. -/
def Obligations.ResetLeavesEveryElementAsItsRuleSays : Prop :=
  ∀ (c : Config) (d : ResetDraws),
    (let s := State.resetFrom c d
     s.rx.head = 0 ∧ s.rx.tail = 0 ∧ s.tx.head = 0 ∧ s.tx.tail = 0 ∧
     s.ctrl = ⟨false, false, false, false⟩ ∧ s.thrf = false ∧ s.rxf = false ∧ s.app = .idle ∧
     s.refused = false ∧ s.lineOut = [] ∧ s.respLog = [] ∧ s.thr = d.thr ∧ s.rdr = d.rdr ∧
     s.div = d.div % 2 ^ c.divW ∧
     (c.bufInit = .zero → ∀ k, s.rx.buf.get k = 0 ∧ s.tx.buf.get k = 0) ∧
     (c.bufInit = .unspecified →
       (∀ k, k < c.rxCap → s.rx.buf.get k = d.rxBuf.getD k 0) ∧
       (∀ k, k < c.txCap → s.tx.buf.get k = d.txBuf.getD k 0)))

/-- No handler is enabled at reset, both events are masked, and the App is idle (70_reset_and_hazards.md R301). That a
firing that is not enabled is a named stop is the model's choice (notes/assumptions/8.md). -/
def Obligations.NoHandlerIsEnabledAtReset : Prop :=
  ∀ (c : Config) (d : ResetDraws),
    (State.resetFrom c d).app = .idle ∧
    (State.resetFrom c d).ctrl.rxie = false ∧ (State.resetFrom c d).ctrl.txie = false ∧
    exec .rxh (State.resetFrom c d) = .fault .rxhNotEnabled ∧ exec .txh (State.resetFrom c d) = .fault .txhNotEnabled

/-- The invariant holds after reset, for every configuration 00_scope.md R7 allows and every draw, and no stale byte
can be sent. -/
def Obligations.ResetMeetsTheInvariant : Prop :=
  (∀ (c : Config) (d : ResetDraws), c.wf = true →
    Consistent (State.resetFrom c d) ∧ noStale (State.resetFrom c d) = true) ∧ Consistent State.reset

/-! ## Invariants and whole-machine rules -/

/-- Every step keeps the invariant: indices below their capacity (10_state.md R38), storages canonical, the App's locals
in agreement with the elements only the App writes (R49). -/
def Obligations.StepKeepsTheInvariant : Prop :=
  ∀ s t : State, Consistent s → step s = .next t → Consistent t

/-- Outside the window of 70_reset_and_hazards.md R312 and the race of R313, a transition keeps the state one from which
no stale byte can be sent: `TXIE = 1` only over a ring that holds bytes. -/
def Obligations.HazardFreeStepKeepsNoStaleByte : Prop :=
  ∀ (s t : State) (i : Instr), Consistent s → noStale s = true → hazardFree i s = true → exec i s = .next t →
    noStale t = true

/-- The bookkeeping only grows: `refused` is never cleared, `line_out` and `resp_log` are only appended to, `line_out`
by LINE_TX alone, `resp_log` by STEP alone, `refused` set by an issue alone (10_state.md R47). -/
def Obligations.BookkeepingOnlyGrows : Prop :=
  ∀ (s t : State) (i : Instr), exec i s = .next t →
    (s.refused = true → t.refused = true) ∧ s.lineOut <+: t.lineOut ∧ s.respLog <+: t.respLog ∧
    (i ≠ .lineTx → t.lineOut = s.lineOut) ∧ (i ≠ .step → t.respLog = s.respLog) ∧
    (i.cls ≠ .issue → t.refused = s.refused)

/-- Who writes what: an element changes only under the words of the agents the ownership table gives as its writers
(10_state.md R49, R50). The last clause is about the count of draws, the model's own field (notes/assumptions/11.md). -/
def Obligations.ElementsChangeOnlyUnderTheirWriters : Prop :=
  ∀ (s t : State) (i : Instr), exec i s = .next t →
    (i ≠ .rxh → t.rx.buf = s.rx.buf ∧ t.rx.head = s.rx.head) ∧
    (i ≠ .step → t.rx.tail = s.rx.tail) ∧
    (i ≠ .step → t.tx.buf = s.tx.buf ∧ t.tx.head = s.tx.head) ∧
    (i ≠ .txh → t.tx.tail = s.tx.tail) ∧
    (i ≠ .step → i ≠ .txh → t.ctrl = s.ctrl) ∧
    (i ≠ .step → t.ctrl.txen = s.ctrl.txen ∧ t.ctrl.rxen = s.ctrl.rxen ∧ t.ctrl.rxie = s.ctrl.rxie ∧ t.div = s.div) ∧
    (i ≠ .step → i ≠ .txh → t.thr = s.thr) ∧
    (i ≠ .step → i ≠ .txh → i ≠ .lineTx → t.thrf = s.thrf) ∧
    ((∀ d, i ≠ .lineRx d) → t.rdr = s.rdr) ∧
    ((∀ d, i ≠ .lineRx d) → i ≠ .rxh → t.rxf = s.rxf) ∧
    (i.agent ≠ .app → t.app = s.app) ∧ (i ≠ .step → t.draws = s.draws)

/-- Every slot keeps its byte but the one a word stores to: RXH at `rx_head`, WRITE stage WM at its captured `h`; no
other word stores (10_state.md R32, R35; 20_memory.md R77). -/
def Obligations.SlotsChangeOnlyWhereStored : Prop :=
  ∀ (s t : State) (i : Instr), exec i s = .next t →
    (∀ a, (i ≠ .rxh ∨ a ≠ s.rx.head) → t.rx.buf.get a = s.rx.buf.get a) ∧
    (∀ a, (∀ l b, i = .step → s.app = .write (.wm l) b → a ≠ l.h) → t.tx.buf.get a = s.tx.buf.get a)

/-- How each `CTRL` bit changes: `TXEN`, `RXEN` and `RXIE` are set by INIT's stages I2, I3, I4 and cleared by nothing;
`TXIE` is set by WRITE stage WE and cleared by a TXH firing that leaves the ring empty (10_state.md R39). -/
def Obligations.ControlBitsAreSetAndClearedAsListed : Prop :=
  ∀ (s t : State) (i : Instr), exec i s = .next t →
    (t.ctrl.txen = true ↔ s.ctrl.txen = true ∨ (i = .step ∧ ∃ baud, s.app = .init .i2 baud)) ∧
    (t.ctrl.rxen = true ↔ s.ctrl.rxen = true ∨ (i = .step ∧ ∃ baud, s.app = .init .i3 baud)) ∧
    (t.ctrl.rxie = true ↔ s.ctrl.rxie = true ∨ (i = .step ∧ ∃ baud, s.app = .init .i4 baud)) ∧
    (s.ctrl.txie = false → t.ctrl.txie = true → i = .step ∧ ∃ l b, s.app = .write (.we l) b) ∧
    (s.ctrl.txie = true → (t.ctrl.txie = false ↔ i = .txh ∧ t.tx.tail = t.tx.head))

/-- No rule reads `DIV`, nor `THR` while `THRF = 0`, nor `RDR` while `RXF = 0`: two runs of one schedule from states that
differ only there stay so, transition by transition, and everything else they hold is the same (10_state.md R41, R44;
93_implementation_defined.md U2, U3). -/
def Obligations.UnreadRegistersNeverMatter : Prop :=
  ∀ (is : List Instr) (s t : State), hideUnread s = hideUnread t →
    mapNext hideUnread (execAll is s) = mapNext hideUnread (execAll is t)

/-! ## Issue, STEP, INIT -/

/-- An issue word starts its operation at the first stage while `app = Idle`, and is refused with no other effect while
the App is busy (43_driver.md R243). That a refusal takes a next state is the model's reading (notes/assumptions/9.md). -/
def Obligations.IssueStartsTheOperationOrIsRefused : Prop :=
  ∀ (s : State) (baud : Baud) (b : Byte),
    (s.app = .idle →
      exec (.init baud) s = .next { s with app := .init .i1 baud } ∧
      exec (.write b) s = .next { s with app := .write .w1 b } ∧
      exec .avail s = .next { s with app := .avail .a1 } ∧
      exec .read s = .next { s with app := .read .rd1 } ∧
      exec .flush s = .next { s with app := .flush .f1 }) ∧
    (s.app ≠ .idle →
      exec (.init baud) s = .next { s with refused := true } ∧
      exec (.write b) s = .next { s with refused := true } ∧
      exec .avail s = .next { s with refused := true } ∧
      exec .read s = .next { s with refused := true } ∧
      exec .flush s = .next { s with refused := true })

/-- INIT's stages, each writing one element and nothing else (43_driver.md R247 to R250). -/
def Obligations.InitStagesWriteTheirElements : Prop :=
  ∀ (s : State) (baud : Baud),
    (s.app = .init .i1 baud → exec .step s =
      .next { s with div := (Config.divisorOf s.cfg.divW baud).toNat, app := .init .i2 baud }) ∧
    (s.app = .init .i2 baud → exec .step s =
      .next { s with ctrl := { s.ctrl with txen := true }, app := .init .i3 baud }) ∧
    (s.app = .init .i3 baud → exec .step s =
      .next { s with ctrl := { s.ctrl with rxen := true }, app := .init .i4 baud }) ∧
    (s.app = .init .i4 baud → exec .step s =
      .next { s with ctrl := { s.ctrl with rxie := true }, app := .idle, respLog := s.respLog ++ [0x1001] })

/-- A whole INIT, with no other agent's step in between: the divisor, the three enables and the response, for every
`baud`; nothing else changes, `TXIE` among it (43_driver.md R246). -/
def Obligations.CallInitConfiguresAndEnables : Prop :=
  ∀ (s : State) (baud : Baud), s.app = .idle →
    encode (.init baud) = (0x01 : BitVec 8) ++ baud ∧
    execAll [.init baud, .step, .step, .step, .step] s =
      .next { s with
        div := (Config.divisorOf s.cfg.divW baud).toNat
        ctrl := ⟨true, true, true, s.ctrl.txie⟩
        respLog := s.respLog ++ [0x1001] }

/-- Until an INIT is issued, LINE takes nothing from the THR and delivers nothing to the RDR; a byte in the THR stays
there, and under `DROP` stays the same byte (70_reset_and_hazards.md R302, its first and third results; 41_receive.md R160, 42_transmit.md R220). -/
def Obligations.NothingCrossesTheLineBeforeInit : Prop :=
  ∀ (is : List Instr) (s t : State),
    s.ctrl.txen = false → s.ctrl.rxen = false → s.app.op ≠ some .init → (∀ baud, Instr.init baud ∉ is) →
    execAll is s = .next t →
      t.ctrl.txen = false ∧ t.ctrl.rxen = false ∧ t.lineOut = s.lineOut ∧ t.rdr = s.rdr ∧
      (s.thrf = true → t.thrf = true ∧ (s.cfg.thrFullWrite = .drop → t.thr = s.thr))

/-! ## WRITE -/

/-- WRITE's direct-path test, one read of another agent's element a stage, in the order `DIRECT_CHECK_ORDER` gives
(42_transmit.md R201, R202). That W2 goes by the locals held is the model's reading (notes/assumptions/16.md). -/
def Obligations.WriteTestsTheDirectPathInTwoStages : Prop :=
  ∀ (s : State) (b : Byte) (e : Bool) (h t : Nat),
    (s.app = .write .w1 b → s.cfg.directCheckOrder = .hwFirst →
      exec .step s = .next { s with app := .write (.w2 (.hw (!s.thrf))) b }) ∧
    (s.app = .write .w1 b → s.cfg.directCheckOrder = .ringFirst →
      exec .step s = .next { s with app := .write (.w2 (.ring s.tx.head s.tx.tail)) b }) ∧
    (s.app = .write (.w2 (.hw e)) b →
      exec .step s = .next { s with
        app :=
          if e = true ∧ s.tx.head = s.tx.tail then .write (.wd e s.tx.head s.tx.tail) b
          else .write (.ws ⟨e, s.tx.head, s.tx.tail, next s.cfg.txCap s.tx.head⟩) b }) ∧
    (s.app = .write (.w2 (.ring h t)) b →
      exec .step s = .next { s with
        app :=
          if s.thrf = false ∧ h = t then .write (.wd (!s.thrf) h t) b
          else .write (.ws ⟨!s.thrf, h, t, next s.cfg.txCap h⟩) b })

/-- WRITE stage WD: `ThrWrite(b)`, and DONE. A byte meeting `THRF = 1` is lost under `DROP`, replaces the other under
`OVERWRITE`; the ring and `TXIE` are not touched (42_transmit.md R203, R221). -/
def Obligations.DirectStageWritesTheThr : Prop :=
  ∀ (s : State) (b : Byte) (e : Bool) (h t : Nat), s.app = .write (.wd e h t) b →
    exec .step s = .next { s with
      thr := if s.thrf = true ∧ s.cfg.thrFullWrite = .drop then s.thr else b
      thrf := true
      app := .idle
      respLog := s.respLog ++ [0x1002] }

/-- WRITE's buffered stages: the spin, the store, the head advance, the enable (42_transmit.md R204 to R207). The store
names the slot it changes, and every other slot keeps its byte. What WS leaves in the local `t` is the model's reading
(notes/assumptions/15.md). -/
def Obligations.BufferedStagesStorePublishAndArm : Prop :=
  ∀ (s : State) (b : Byte) (l : WriteLocals),
    (s.app = .write (.ws l) b → l.nh ≠ s.tx.tail →
      exec .step s = .next { s with app := .write (.wm { l with t := s.tx.tail }) b }) ∧
    (s.app = .write (.ws l) b → l.nh = s.tx.tail → exec .step s = .next s) ∧
    (s.app = .write (.wm l) b → l.h < s.cfg.txCap → s.tx.buf.wf s.cfg.txCap = true →
      exec .step s = .next { s with
        tx := ⟨s.tx.buf.set l.h b, s.tx.head, s.tx.tail⟩
        app := .write (.wh l) b } ∧
      (s.tx.buf.set l.h b).get l.h = b ∧ ∀ a, a ≠ l.h → (s.tx.buf.set l.h b).get a = s.tx.buf.get a) ∧
    (s.app = .write (.wh l) b →
      exec .step s = .next { s with tx := ⟨s.tx.buf, l.nh, s.tx.tail⟩, app := .write (.we l) b }) ∧
    (s.app = .write (.we l) b →
      exec .step s = .next { s with
        ctrl := { s.ctrl with txie := true }
        app := .idle
        respLog := s.respLog ++ [0x1002] })

/-- A WRITE that reads an empty THR and an empty ring, with any steps but TXH's and its own in between, leaves `b` in the
THR and does not change `TXIE` or the ring, under either order of the two reads (42_transmit.md R208). -/
def Obligations.DirectPathSurvivesInterleaving : Prop :=
  ∀ (xs ys : List Instr) (s t : State) (b : Byte),
    s.app = .write .w1 b → s.thrf = false → s.tx.head = s.tx.tail →
    (∀ i ∈ xs ++ ys, i ≠ .step ∧ i ≠ .txh) →
    execAll (.step :: (xs ++ .step :: (ys ++ [.step]))) s = .next t →
      t.thr = b ∧ t.thrf = true ∧ t.ctrl = s.ctrl ∧ t.tx = s.tx ∧ t.app = .idle ∧
      t.respLog = s.respLog ++ [0x1002]

/-- A whole buffered WRITE on a ring that is not full, with no other agent's step in between: the byte joins the ring's
contents, the drain is armed, and WRITE is done in six stages (42_transmit.md R200, R204 to R207). -/
def Obligations.BufferedWriteJoinsTheContents : Prop :=
  ∀ (s : State) (b : Byte), Consistent s → s.app = .idle → s.thrf = true → s.tx.isFull s.cfg.txCap = false →
    ∃ t, execAll [.write b, .step, .step, .step, .step, .step, .step] s = .next t ∧
      t.tx.contents s.cfg.txCap = s.tx.contents s.cfg.txCap ++ [b] ∧ t.ctrl = { s.ctrl with txie := true } ∧
      t.app = .idle ∧ t.respLog = s.respLog ++ [0x1002] ∧ t.rx = s.rx ∧ t.thr = s.thr ∧ t.thrf = true ∧
      t.rdr = s.rdr ∧ t.rxf = s.rxf ∧ t.div = s.div ∧ t.lineOut = s.lineOut ∧ t.refused = s.refused

/-- A WRITE spinning on a full ring stays at WS, and the ring as it is, under any steps but a TXH firing; there is no
timeout and no cancellation (42_transmit.md R204, 70_reset_and_hazards.md R314). -/
def Obligations.SpinEndsOnlyByATxhFiring : Prop :=
  ∀ (is : List Instr) (s t : State) (l : WriteLocals) (b : Byte),
    s.app = .write (.ws l) b → l.nh = s.tx.tail → Instr.txh ∉ is → execAll is s = .next t →
      t.app = s.app ∧ t.tx = s.tx ∧ t.respLog = s.respLog

/-- One TXH firing ends the spin: the next WS stage goes on to WM (42_transmit.md R209). -/
def Obligations.OneDrainEndsTheSpin : Prop :=
  ∀ (s : State) (l : WriteLocals) (b : Byte), Consistent s →
    s.app = .write (.ws l) b → l.nh = s.tx.tail → enabled .txh s = true →
      ∃ t, execAll [.txh, .step] s = .next t ∧
        t.app = .write (.wm { l with t := next s.cfg.txCap s.tx.tail }) b ∧
        t.tx = ⟨s.tx.buf, s.tx.head, next s.cfg.txCap s.tx.tail⟩

/-- `CALL WRITE` expands to the issue word and six STEPs where the buffered path finds room, and has no end where the ring
is full and no other agent may run: no number of STEPs reaches `Idle` (30_encoding.md R110, 42_transmit.md R204). The
bound on an expansion is the model's (notes/assumptions/18.md). -/
def Obligations.CallWriteEndsExactlyWhereThereIsRoom : Prop :=
  ∀ (s : State) (b : Byte), Consistent s → s.app = .idle → s.thrf = true →
    (s.tx.isFull s.cfg.txCap = false →
      ∀ fuel, 6 ≤ fuel → callWords fuel (.write b) s = some (.write b :: List.replicate 6 .step)) ∧
    (s.tx.isFull s.cfg.txCap = true → ∀ fuel, callWords fuel (.write b) s = none)

/-! ## TXH and LINE_TX -/

/-- TXH: the byte at the tail goes to the THR, the tail advances, and `TXIE` is cleared where that leaves the ring empty;
nothing else changes. It fires exactly while its guard holds (42_transmit.md R212), and `HANDLER_ARB` leaves it the turn
(60_exceptions.md R265). That a hold is a named stop, and how a fixed order takes the turn, are the model's
(notes/assumptions/8.md, notes/assumptions/12.md). -/
def Obligations.TxhSendsTheByteAtTheTail : Prop :=
  ∀ s : State, encode .txh = 0x8200000000 ∧
    (s.ctrl.txie = true → s.thrf = false → s.tx.tail < s.cfg.txCap →
      (s.cfg.handlerArb = .rxFirst → ¬(s.ctrl.rxie = true ∧ s.rxf = true)) →
      exec .txh s = .next { s with
        thr := s.tx.buf.get s.tx.tail
        thrf := true
        tx := ⟨s.tx.buf, s.tx.head, next s.cfg.txCap s.tx.tail⟩
        ctrl := { s.ctrl with txie := decide (next s.cfg.txCap s.tx.tail ≠ s.tx.head) } }) ∧
    ((s.ctrl.txie = false ∨ s.thrf = true) → exec .txh s = .fault .txhNotEnabled)

/-- LINE_TX takes the byte in the THR onto the line while `TXEN = 1` and `THRF = 1`, and is a hold otherwise
(42_transmit.md R220). That a hold is a named stop is the model's choice (notes/assumptions/8.md). -/
def Obligations.LineTxTakesTheThrByte : Prop :=
  ∀ s : State, encode .lineTx = 0xC200000000 ∧
    (s.ctrl.txen = true → s.thrf = true →
      exec .lineTx s = .next { s with lineOut := s.lineOut ++ [s.thr], thrf := false }) ∧
    ((s.ctrl.txen = false ∨ s.thrf = false) → exec .lineTx s = .fault .lineTxNotEnabled)

/-- A TXH firing on an empty ring sends the stale byte at the tail, leaves the ring reading as full and `TXIE` at 1
(42_transmit.md R212's corner case). -/
def Obligations.TxhOnAnEmptyRingLeavesItFull : Prop :=
  ∀ s : State, Consistent s → s.tx.isEmpty = true → enabled .txh s = true →
    ∃ t, exec .txh s = .next t ∧ t.thr = s.tx.buf.get s.tx.tail ∧ t.tx.isFull s.cfg.txCap = true ∧
      t.tx.count s.cfg.txCap = s.cfg.txCap - 1 ∧ t.ctrl.txie = true ∧ t.tx.buf = s.tx.buf ∧ t.tx.head = s.tx.head

/-- The spurious burst: `TXIE = 1` over an empty ring, with no WRITE in between, sends every slot once, from the old head
on, in `TX_CAP` firings, and ends with the ring empty and `TXIE = 0` (70_reset_and_hazards.md R312, effect 3). -/
def Obligations.RearmedDrainSendsEverySlotOnce : Prop :=
  ∀ s : State, Consistent s → s.tx.head = s.tx.tail → s.ctrl.txie = true → s.ctrl.txen = true → s.thrf = false →
    s.cfg.handlerArb ≠ .rxFirst →
      execAll (List.replicate s.cfg.txCap [Instr.txh, Instr.lineTx]).flatten s =
        .next { s with
          lineOut := s.lineOut ++ (List.range s.cfg.txCap).map fun k => s.tx.buf.get ((s.tx.head + k) % s.cfg.txCap)
          thr := s.tx.buf.get ((s.tx.head + (s.cfg.txCap - 1)) % s.cfg.txCap)
          ctrl := { s.ctrl with txie := false } }

/-- The race of the direct-path test: a TXH firing that empties the ring between stages W1 and W2 of a WRITE that read
`THRF = 0`. Under `HW_FIRST` one of two bytes is lost, by `THR_FULL_WRITE`, and WRITE answers DONE; under `RING_FIRST`
the WRITE takes the buffered path (70_reset_and_hazards.md R313). -/
def Obligations.DirectTestRacesADrain : Prop :=
  ∀ (s : State) (b : Byte), Consistent s → s.app = .write .w1 b → s.thrf = false → enabled .txh s = true →
    next s.cfg.txCap s.tx.tail = s.tx.head →
    (s.cfg.directCheckOrder = .hwFirst →
      execAll [.step, .txh, .step, .step] s = .next { s with
        tx := ⟨s.tx.buf, s.tx.head, s.tx.head⟩
        ctrl := { s.ctrl with txie := false }
        thr := if s.cfg.thrFullWrite = .drop then s.tx.buf.get s.tx.tail else b
        thrf := true
        app := .idle
        respLog := s.respLog ++ [0x1002] }) ∧
    (s.cfg.directCheckOrder = .ringFirst →
      execAll [.step, .txh, .step] s = .next { s with
        tx := ⟨s.tx.buf, s.tx.head, s.tx.head⟩
        ctrl := { s.ctrl with txie := false }
        thr := s.tx.buf.get s.tx.tail
        thrf := true
        app := .write (.ws ⟨false, s.tx.head, s.tx.tail, next s.cfg.txCap s.tx.head⟩) b })

/-- Line order: over any run free of the hazards, from any state free of stale bytes, what is on the line, in the THR and
in the ring is what was there followed by the bytes WRITE handed over, in WRITE order, each once (42_transmit.md R213,
R215). -/
def Obligations.LineCarriesTheWritesInOrder : Prop :=
  ∀ (is : List Instr) (s t : State), Consistent s → noStale s = true → safeRun is s = true → execAll is s = .next t →
    sentAndQueued t = sentAndQueued s ++ collect acceptedBy is s

/-! ## LINE_RX, RXH, AVAIL, READ, FLUSH -/

/-- LINE_RX always happens: discarded while `RXEN = 0`, delivered while `RXF = 0`, resolved by `OVERRUN_POLICY` while
`RXF = 1` (41_receive.md R160). -/
def Obligations.LineRxDeliversOrLosesTheByte : Prop :=
  ∀ (s : State) (d : Byte),
    encode (.lineRx d) = (0xC1000000 : BitVec 32) ++ d ∧
    exec (.lineRx d) s = .next
      (if s.ctrl.rxen = false then s
       else if s.rxf = false then { s with rdr := d, rxf := true }
       else if s.cfg.overrunPolicy = .overwrite then { s with rdr := d }
       else s)

/-- RXH: `RXF` is cleared; on a full ring the byte is dropped and nothing else changes; otherwise slot `rx_head` holds it,
every other slot its byte, and the head advances. It is a hold while its guard is false (41_receive.md R162), and
`HANDLER_ARB` must leave it the turn (60_exceptions.md R265). That a hold is a named stop, and how a fixed order takes the
turn, are the model's (notes/assumptions/8.md, notes/assumptions/12.md). -/
def Obligations.RxhStoresOrDropsTheByte : Prop :=
  ∀ s : State, encode .rxh = 0x8100000000 ∧
    (s.ctrl.rxie = true → s.rxf = true →
      (s.cfg.handlerArb = .txFirst → ¬(s.ctrl.txie = true ∧ s.thrf = false)) →
      (next s.cfg.rxCap s.rx.head = s.rx.tail → exec .rxh s = .next { s with rxf := false }) ∧
      (next s.cfg.rxCap s.rx.head ≠ s.rx.tail → s.rx.head < s.cfg.rxCap → s.rx.buf.wf s.cfg.rxCap = true →
        ∃ m : Memory,
          exec .rxh s = .next { s with
            rxf := false
            rx := ⟨m, next s.cfg.rxCap s.rx.head, s.rx.tail⟩ } ∧
          m.get s.rx.head = s.rdr ∧ ∀ a, a ≠ s.rx.head → m.get a = s.rx.buf.get a)) ∧
    ((s.ctrl.rxie = false ∨ s.rxf = false) → exec .rxh s = .fault .rxhNotEnabled)

/-- AVAIL answers true iff `head != tail`, changing nothing but `app` and `resp_log` (41_receive.md R165). -/
def Obligations.AvailAnswersWhetherBytesAreHeld : Prop :=
  ∀ s : State, encode .avail = 0x0300000000 ∧
    (s.app = .idle → exec .avail s = .next { s with app := .avail .a1 }) ∧
    (s.app = .avail .a1 →
      exec .step s = .next { s with
        app := .idle
        respLog := s.respLog ++ [if s.rx.head = s.rx.tail then 0x2000 else 0x2001] })

/-- READ under `CONTRACT`: NODATA on an empty ring with no other change; otherwise the byte at the tail is read, then the
tail advances and the byte is returned. An RXH firing between those stages neither writes the slot being read nor
reaches it (41_receive.md R170). -/
def Obligations.ReadReturnsTheByteAtTheTail : Prop :=
  ∀ (s : State) (h t : Nat) (v : Byte), s.cfg.readPolarity = .contract →
    encode .read = 0x0400000000 ∧ (s.app = .idle → exec .read s = .next { s with app := .read .rd1 }) ∧
    (s.app = .read .rd1 → s.rx.head = s.rx.tail →
      exec .step s = .next { s with app := .idle, respLog := s.respLog ++ [0x4000] }) ∧
    (s.app = .read .rd1 → s.rx.head ≠ s.rx.tail →
      exec .step s = .next { s with app := .read (.rd2 s.rx.head s.rx.tail) }) ∧
    (s.app = .read (.rd2 h t) → t < s.cfg.rxCap →
      exec .step s = .next { s with app := .read (.rd3 h t (s.rx.buf.get t)) }) ∧
    (s.app = .read (.rd3 h t v) →
      exec .step s = .next { s with
        rx := ⟨s.rx.buf, s.rx.head, next s.cfg.rxCap t⟩
        app := .idle
        respLog := s.respLog ++ [0x3000 ||| v.zeroExtend 16] }) ∧
    (Consistent s → s.app = .read (.rd2 h t) ∨ s.app = .read (.rd3 h t v) → ∀ u, exec .rxh s = .next u →
      u.rx.buf.get t = s.rx.buf.get t ∧ u.rx.tail = t ∧ u.rx.head ≠ t)

/-- READ under `INVERTED`: NODATA on a ring that holds bytes with no other change; on an empty ring the byte at the tail
is returned, and the tail is `t` or `next(t)`, whichever the draw gives; advanced past the head of an empty ring it leaves
the count at `C - 1` (41_receive.md R171). The count of draws is the
model's own field (notes/assumptions/11.md). -/
def Obligations.InvertedReadReturnsAStaleByte : Prop :=
  ∀ (s : State) (h t : Nat) (v : Byte), s.cfg.readPolarity = .inverted →
    encode .read = 0x0400000000 ∧ (s.app = .idle → exec .read s = .next { s with app := .read .rd1 }) ∧
    (s.app = .read .rd1 → s.rx.head ≠ s.rx.tail →
      exec .step s = .next { s with app := .idle, respLog := s.respLog ++ [0x4000] }) ∧
    (s.app = .read .rd1 → s.rx.head = s.rx.tail →
      exec .step s = .next { s with app := .read (.rd2 s.rx.head s.rx.tail) }) ∧
    (s.app = .read (.rd2 h t) → t < s.cfg.rxCap →
      exec .step s = .next { s with app := .read (.rd3 h t (s.rx.buf.get t)) }) ∧
    (s.app = .read (.rd3 h t v) →
      ∃ t', (t' = t ∨ t' = next s.cfg.rxCap t) ∧
        exec .step s = .next { s with
          rx := ⟨s.rx.buf, s.rx.head, t'⟩
          app := .idle
          respLog := s.respLog ++ [0x3000 ||| v.zeroExtend 16]
          draws := s.draws + 1 }) ∧
    (t = s.rx.head → s.rx.head < s.cfg.rxCap → 2 ≤ s.cfg.rxCap →
      Ring.count s.cfg.rxCap ⟨s.rx.buf, s.rx.head, next s.cfg.rxCap t⟩ = s.cfg.rxCap - 1)

/-- FLUSH: the head is captured, then the captured value is written to the tail; the head is never written. Of a byte RXH
handles between the two stages, the ring keeps it unless the ring was full, when it is dropped
(41_receive.md R175). -/
def Obligations.FlushWritesTheCapturedHeadToTheTail : Prop :=
  ∀ (s : State) (h : Nat), encode .flush = 0x0500000000 ∧
    (s.app = .idle → exec .flush s = .next { s with app := .flush .f1 }) ∧
    (s.app = .flush .f1 → exec .step s = .next { s with app := .flush (.f2 s.rx.head) }) ∧
    (s.app = .flush (.f2 h) →
      exec .step s = .next { s with
        rx := ⟨s.rx.buf, s.rx.head, h⟩
        app := .idle
        respLog := s.respLog ++ [0x1005] }) ∧
    (∀ t, Consistent s → s.app = .flush .f1 → execAll [.step, .rxh, .step] s = .next t →
      t.rx.contents s.cfg.rxCap = if s.rx.isFull s.cfg.rxCap then [] else [s.rdr])

/-- What survives a FLUSH: exactly the bytes RXH stored between its two stages, in order (41_receive.md R176). -/
def Obligations.FlushKeepsTheBytesStoredAfterItsCapture : Prop :=
  ∀ (is : List Instr) (s t : State), Consistent s → s.app = .flush .f1 → Instr.step ∉ is →
    execAll (.step :: (is ++ [.step])) s = .next t →
      t.rx.contents s.cfg.rxCap = collect rxStoredBy is { s with app := .flush (.f2 s.rx.head) }

/-- Receive overflow: bytes delivered and handled one by one, with nothing read in between, are kept up to `C - 1` in the
ring, and every one beyond is dropped without a trace (41_receive.md R163). -/
def Obligations.OverflowKeepsTheFirstBytes : Prop :=
  ∀ (ds : List Byte) (s : State), Consistent s → s.ctrl.rxen = true → s.ctrl.rxie = true → s.rxf = false →
    s.cfg.handlerArb ≠ .txFirst →
      ∃ t, execAll (ds.flatMap recvWords) s = .next t ∧
        t.rx.contents s.cfg.rxCap = (s.rx.contents s.cfg.rxCap ++ ds).take (s.cfg.rxCap - 1) ∧
        t.rx.tail = s.rx.tail ∧ t.rxf = false ∧ t.respLog = s.respLog ∧ t.refused = s.refused ∧ t.app = s.app

/-- The receive path is FIFO: over any run with no FLUSH, under `CONTRACT`, the bytes held at the start followed by the
bytes RXH stored are the bytes READ returned followed by the bytes held at the end (41_receive.md R172, 40_ring.md
R139). -/
def Obligations.ReadsReturnTheStoredBytesInOrder : Prop :=
  ∀ (is : List Instr) (s t : State), Consistent s → s.cfg.readPolarity = .contract →
    s.app.op ≠ some .flush → Instr.flush ∉ is → execAll is s = .next t →
      ∃ log, t.respLog = s.respLog ++ log ∧
        s.rx.contents s.cfg.rxCap ++ collect rxStoredBy is s = dataBytes log ++ t.rx.contents s.cfg.rxCap

/-! ## Rings -/

/-- `next_C` stays below `C`, wraps from `C - 1` to 0 only, and is the `IDX_W`-bit increment followed by "if the result
equals `C` then 0", `C = 2^IDX_W` included (40_ring.md R131). -/
def Obligations.SuccessorWrapsAndFitsItsRegister : Prop :=
  ∀ (w cap : Nat) (i : BitVec w), 1 ≤ w → cap ≤ 2 ^ w → i.toNat < cap →
    next cap i.toNat = (if i.toNat < cap - 1 then i.toNat + 1 else 0) ∧ next cap i.toNat < cap ∧
    (nextBits cap w i).toNat = next cap i.toNat

/-- Count against Empty and Full: `Count` is the number below `C` congruent to `head - tail`, 0 exactly on an empty ring,
`C - 1` exactly on a full one (40_ring.md R134); no ring of two slots or more is both empty and full, one of one slot
always is (R137). -/
def Obligations.CountTellsEmptyFromFull : Prop :=
  (∀ (cap : Nat) (r : Ring), r.head < cap → r.tail < cap →
    (r.tail + r.count cap) % cap = r.head ∧ r.count cap ≤ cap - 1 ∧
    (r.isEmpty = true ↔ r.count cap = 0) ∧ (r.isFull cap = true ↔ r.count cap = cap - 1) ∧
    (2 ≤ cap → ¬(r.isEmpty = true ∧ r.isFull cap = true)) ∧
    (cap = 1 → r.isEmpty = true ∧ r.isFull cap = true))

/-- A full ring holds `C - 1` bytes, in every slot but one, slot `head`, which is also `(tail - 1) mod C` (40_ring.md R136). -/
def Obligations.FullRingLeavesOneSlotUnused : Prop :=
  ∀ (cap : Nat) (r : Ring), r.head < cap → r.tail < cap → r.isFull cap = true →
    (r.contents cap).length = cap - 1 ∧ r.head = subMod cap r.tail 1 ∧
    ∀ i, i < cap → ((∃ k, k < r.count cap ∧ (r.tail + k) % cap = i) ↔ i ≠ r.head)

/-- `Push` and `Pop` on the contents: a push happens exactly on a ring that is not full and appends, a pop exactly on one
that is not empty and takes the oldest (40_ring.md R138). -/
def Obligations.PushAppendsAndPopTakesTheOldest : Prop :=
  ∀ (cap : Nat) (r : Ring) (v : Byte), r.wf cap = true →
    (r.isFull cap = false → ∃ r', r.push cap v = some r' ∧
      r'.buf.get r.head = v ∧ (∀ a, a ≠ r.head → r'.buf.get a = r.buf.get a) ∧
      r'.head = next cap r.head ∧ r'.tail = r.tail ∧
      r'.contents cap = r.contents cap ++ [v] ∧ r'.count cap = r.count cap + 1) ∧
    (r.isFull cap = true → r.push cap v = none) ∧
    (r.isEmpty = false → ∃ u r', r.pop cap = some (u, r') ∧
      u = r.buf.get r.tail ∧ r'.tail = next cap r.tail ∧ r'.head = r.head ∧ r'.buf = r.buf ∧
      r.contents cap = u :: r'.contents cap ∧ r.count cap = r'.count cap + 1) ∧
    (r.isEmpty = true → r.pop cap = none)

/-! ## Events, contexts, observation -/

/-- Both handlers pending and enabled: under `ANY` either may fire and the other may fire next; under `RX_FIRST` and
`TX_FIRST` only the named one may fire (60_exceptions.md R265). That the other is held until then, and that a hold is a
named stop, are the model's (notes/assumptions/12.md, notes/assumptions/8.md). -/
def Obligations.ArbitrationOfTwoPendingHandlers : Prop :=
  ∀ s : State, Consistent s → s.ctrl.rxie = true → s.rxf = true → s.ctrl.txie = true → s.thrf = false →
    (s.cfg.handlerArb = .any →
      (∃ t u, exec .rxh s = .next t ∧ exec .txh t = .next u) ∧ (∃ t u, exec .txh s = .next t ∧ exec .rxh t = .next u)) ∧
    (s.cfg.handlerArb = .rxFirst →
      exec .txh s = .fault .txhNotEnabled ∧ ∃ t u, exec .rxh s = .next t ∧ exec .txh t = .next u) ∧
    (s.cfg.handlerArb = .txFirst →
      exec .rxh s = .fault .rxhNotEnabled ∧ ∃ t u, exec .txh s = .next t ∧ exec .rxh t = .next u)

/-- A handler firing neither reads nor writes `app` or the App's locals, so the App goes on at the stage it held; no
enable bit changes but `TXIE`, which TXH may clear (60_exceptions.md R266, R268). -/
def Obligations.FiringsLeaveTheAppAlone : Prop :=
  ∀ (s : State) (i : Instr) (a : App), i.cls = .handlerFiring →
    exec i { s with app := a } = mapNext (fun t => { t with app := a }) (exec i s) ∧
    ∀ t, exec i s = .next t →
      t.app = s.app ∧ t.ctrl = { s.ctrl with txie := t.ctrl.txie } ∧ (i = .rxh → t.ctrl = s.ctrl) ∧
      (t.ctrl.txie = true → s.ctrl.txie = true) ∧
      t.respLog = s.respLog

/-- The handlers' derived states move as their tables say: from `RX_IDLE` to `RX_PENDING` by LINE_RX where it fills `RDR`
while `RXIE = 1`, and by INIT stage I4 while `RXF = 1`; from `RX_PENDING` to `RX_IDLE` by a firing of RXH; from `TX_OFF` to
`TX_WAIT` or `TX_READY` by WRITE stage WE, as `THRF` says; from `TX_WAIT` to `TX_READY` by LINE_TX; from `TX_READY` by a
firing of TXH to `TX_OFF` where it leaves the ring empty, else to `TX_WAIT`
(41_receive.md R161, 42_transmit.md R210). -/
def Obligations.HandlerStatesMoveAsTheirTablesSay : Prop :=
  ∀ s t : State,
    (exec .rxh s = .next t → rxhState s = .rxPending ∧ rxhState t = .rxIdle) ∧
    (exec .txh s = .next t → txhState s = .txReady ∧
      txhState t = (if t.tx.tail = t.tx.head then .txOff else .txWait)) ∧
    (exec .lineTx s = .next t → txhState s = .txWait → txhState t = .txReady) ∧
    (∀ d, exec (.lineRx d) s = .next t → rxhState s = .rxIdle → rxhState t = .rxPending →
      s.ctrl.rxie = true ∧ s.rxf = false ∧ t.rdr = d) ∧
    (∀ d, exec (.lineRx d) s = .next t → s.ctrl.rxen = true → s.rxf = false → s.ctrl.rxie = true →
      rxhState t = .rxPending) ∧
    (∀ baud, s.app = .init .i4 baud → exec .step s = .next t →
      rxhState t = (if s.rxf = true then .rxPending else .rxIdle)) ∧
    (∀ l b, s.app = .write (.we l) b → exec .step s = .next t →
      txhState t = (if s.thrf = true then .txWait else .txReady))

/-- In a quiescent state no step but an issue or a delivery can happen (60_exceptions.md R282). -/
def Obligations.QuiescentStatesOnlyAwaitInput : Prop :=
  ∀ s : State, quiescent s = true ↔
    (exec .step s = .fault .stepNotEnabled ∧ exec .rxh s = .fault .rxhNotEnabled ∧
      exec .txh s = .fault .txhNotEnabled ∧ exec .lineTx s = .fault .lineTxNotEnabled)

/-- The response words: NODATA is no DATA word, two DATA words are of two bytes only if the bytes differ, and a response
log gives back the bytes it returned; the byte-only view gives `NO_DATA_BYTE` for NODATA (30_encoding.md R106, R107). -/
def Obligations.ResponsesKeepNoDataApart : Prop :=
  respWord (.done .init) = 0x1001 ∧ respWord (.done .write) = 0x1002 ∧ respWord (.done .flush) = 0x1005 ∧
  respWord (.avail true) = 0x2001 ∧ respWord (.avail false) = 0x2000 ∧ respWord .noData = 0x4000 ∧
  (∀ v : Byte, respWord (.data v) = 0x3000 ||| v.zeroExtend 16) ∧
  (∀ v : Byte, respWord (.data v) ≠ respWord .noData) ∧
  (∀ vs : List Byte, dataBytes (vs.map fun v => respWord (.data v)) = vs) ∧
  (∀ (c : Config) (v : Byte), byteView c .noData = some c.noDataByte ∧ byteView c (.data v) = some v)

/-- The inspection view: the numbers 0 to 7, the fields of `CTRL` and `STATUS` at their bits, `CTRL` taking bits 3:0 of a
write and reading the others as 0, each index at its own number, `STATUS` and the indices ignoring writes, `DATA` reading
`RDR` and writing the THR as `ThrWrite` does (10_state.md R39, R40, R45; 42_transmit.md R221). A write changes its own
register only. What an ignored write and a write of `DATA` do is the model's reading (notes/assumptions/14.md). -/
def Obligations.InspectionShowsTheRegisters : Prop :=
  (∀ n r, Reg.ofNumber n = some r ↔ [Reg.data, .status, .ctrl, .div, .rxHead, .rxTail, .txHead, .txTail][n]? = some r) ∧
  ∀ (s : State) (v : Nat),
    inspectRead .ctrl (inspectWrite .ctrl v s) = v % 16 ∧
    ((inspectRead .ctrl s).testBit 0 = s.ctrl.txen ∧ (inspectRead .ctrl s).testBit 1 = s.ctrl.rxen ∧
      (inspectRead .ctrl s).testBit 2 = s.ctrl.rxie ∧ (inspectRead .ctrl s).testBit 3 = s.ctrl.txie) ∧
    ((inspectRead .status s).testBit 0 = s.thrf ∧ (inspectRead .status s).testBit 1 = s.rxf ∧
      inspectRead .status s < 4) ∧
    inspectRead .div s = s.div ∧ inspectRead .div (inspectWrite .div v s) = v % 2 ^ s.cfg.divW ∧
    inspectRead .data s = s.rdr.toNat ∧
    inspectRead .rxHead s = s.rx.head ∧ inspectRead .rxTail s = s.rx.tail ∧
    inspectRead .txHead s = s.tx.head ∧ inspectRead .txTail s = s.tx.tail ∧
    (∃ c, inspectWrite .ctrl v s = { s with ctrl := c }) ∧ (∃ d, inspectWrite .div v s = { s with div := d }) ∧
    (∀ r ∈ [Reg.status, .rxHead, .rxTail, .txHead, .txTail], inspectWrite r v s = s) ∧
    (s.thrf = false → inspectWrite .data v s = { s with thr := BitVec.ofNat 8 v, thrf := true }) ∧
    (s.thrf = true → s.cfg.thrFullWrite = .drop → inspectWrite .data v s = s) ∧
    (s.thrf = true → s.cfg.thrFullWrite = .overwrite → inspectWrite .data v s = { s with thr := BitVec.ofNat 8 v })

/-! ## Infinite runs -/

/-- A line that never drains hangs a spinning WRITE: in every infinite run with no LINE_TX, a WRITE waiting at WS on a
full ring with `THRF = 1` is there for ever (60_exceptions.md R281). -/
def Obligations.StalledLineHangsTheWrite : Prop :=
  ∀ (words : Nat → OpWord) (states : Nat → State) (l : WriteLocals) (b : Byte),
    IsRun words states → (∀ n, decode (words n) ≠ .row .lineTx) →
    (states 0).app = .write (.ws l) b → l.nh = (states 0).tx.tail → (states 0).thrf = true →
      ∀ n, (states n).app = .write (.ws l) b ∧ (states n).tx = (states 0).tx ∧ (states n).thrf = true ∧
        quiescent (states n) = false

/-- In a weakly fair run a received byte is handled: once `RXF = 1` and `RXIE = 1`, an RXH firing comes, whatever
`HANDLER_ARB` is (60_exceptions.md R262, R265, R270; weak fairness as the model puts it: notes/assumptions/19.md). -/
def Obligations.FairRunsHandleEveryReceivedByte : Prop :=
  ∀ (words : Nat → OpWord) (states : Nat → State) (n : Nat),
    IsRun words states → WeaklyFair words states →
    (states n).ctrl.rxie = true → (states n).rxf = true →
      ∃ m, n ≤ m ∧ decode (words m) = .row .rxh
end

