-- ==== Sys2Proof/Laws/State.lean ====
section
/-! SUPPORT. One lemma per field and per update of State: what each named operation leaves in each field. -/

namespace Sys2Proof.Machine

/-! ## goTo -/

@[simp] theorem goTo_cfg (a : App) (s : State) : (goTo a s).cfg = s.cfg := rfl
@[simp] theorem goTo_rx (a : App) (s : State) : (goTo a s).rx = s.rx := rfl
@[simp] theorem goTo_tx (a : App) (s : State) : (goTo a s).tx = s.tx := rfl
@[simp] theorem goTo_ctrl (a : App) (s : State) : (goTo a s).ctrl = s.ctrl := rfl
@[simp] theorem goTo_div (a : App) (s : State) : (goTo a s).div = s.div := rfl
@[simp] theorem goTo_thr (a : App) (s : State) : (goTo a s).thr = s.thr := rfl
@[simp] theorem goTo_thrf (a : App) (s : State) : (goTo a s).thrf = s.thrf := rfl
@[simp] theorem goTo_rdr (a : App) (s : State) : (goTo a s).rdr = s.rdr := rfl
@[simp] theorem goTo_rxf (a : App) (s : State) : (goTo a s).rxf = s.rxf := rfl
@[simp] theorem goTo_app (a : App) (s : State) : (goTo a s).app = a := rfl
@[simp] theorem goTo_refused (a : App) (s : State) : (goTo a s).refused = s.refused := rfl
@[simp] theorem goTo_lineOut (a : App) (s : State) : (goTo a s).lineOut = s.lineOut := rfl
@[simp] theorem goTo_respLog (a : App) (s : State) : (goTo a s).respLog = s.respLog := rfl
@[simp] theorem goTo_schedule (a : App) (s : State) : (goTo a s).schedule = s.schedule := rfl
@[simp] theorem goTo_draws (a : App) (s : State) : (goTo a s).draws = s.draws := rfl

/-! ## finish -/

@[simp] theorem finish_cfg (r : Response) (s : State) : (finish r s).cfg = s.cfg := rfl
@[simp] theorem finish_rx (r : Response) (s : State) : (finish r s).rx = s.rx := rfl
@[simp] theorem finish_tx (r : Response) (s : State) : (finish r s).tx = s.tx := rfl
@[simp] theorem finish_ctrl (r : Response) (s : State) : (finish r s).ctrl = s.ctrl := rfl
@[simp] theorem finish_div (r : Response) (s : State) : (finish r s).div = s.div := rfl
@[simp] theorem finish_thr (r : Response) (s : State) : (finish r s).thr = s.thr := rfl
@[simp] theorem finish_thrf (r : Response) (s : State) : (finish r s).thrf = s.thrf := rfl
@[simp] theorem finish_rdr (r : Response) (s : State) : (finish r s).rdr = s.rdr := rfl
@[simp] theorem finish_rxf (r : Response) (s : State) : (finish r s).rxf = s.rxf := rfl
@[simp] theorem finish_app (r : Response) (s : State) : (finish r s).app = .idle := rfl
@[simp] theorem finish_refused (r : Response) (s : State) : (finish r s).refused = s.refused := rfl
@[simp] theorem finish_lineOut (r : Response) (s : State) : (finish r s).lineOut = s.lineOut := rfl
@[simp] theorem finish_respLog (r : Response) (s : State) : (finish r s).respLog = s.respLog ++ [r] := rfl
@[simp] theorem finish_schedule (r : Response) (s : State) : (finish r s).schedule = s.schedule := rfl
@[simp] theorem finish_draws (r : Response) (s : State) : (finish r s).draws = s.draws := rfl

/-! ## refuse -/

@[simp] theorem refuse_cfg (s : State) : (refuse s).cfg = s.cfg := rfl
@[simp] theorem refuse_rx (s : State) : (refuse s).rx = s.rx := rfl
@[simp] theorem refuse_tx (s : State) : (refuse s).tx = s.tx := rfl
@[simp] theorem refuse_ctrl (s : State) : (refuse s).ctrl = s.ctrl := rfl
@[simp] theorem refuse_div (s : State) : (refuse s).div = s.div := rfl
@[simp] theorem refuse_thr (s : State) : (refuse s).thr = s.thr := rfl
@[simp] theorem refuse_thrf (s : State) : (refuse s).thrf = s.thrf := rfl
@[simp] theorem refuse_rdr (s : State) : (refuse s).rdr = s.rdr := rfl
@[simp] theorem refuse_rxf (s : State) : (refuse s).rxf = s.rxf := rfl
@[simp] theorem refuse_app (s : State) : (refuse s).app = s.app := rfl
@[simp] theorem refuse_refused (s : State) : (refuse s).refused = true := rfl
@[simp] theorem refuse_lineOut (s : State) : (refuse s).lineOut = s.lineOut := rfl
@[simp] theorem refuse_respLog (s : State) : (refuse s).respLog = s.respLog := rfl
@[simp] theorem refuse_schedule (s : State) : (refuse s).schedule = s.schedule := rfl
@[simp] theorem refuse_draws (s : State) : (refuse s).draws = s.draws := rfl

/-! ## drainThr -/

@[simp] theorem drainThr_cfg (s : State) : (drainThr s).cfg = s.cfg := rfl
@[simp] theorem drainThr_rx (s : State) : (drainThr s).rx = s.rx := rfl
@[simp] theorem drainThr_tx (s : State) : (drainThr s).tx = s.tx := rfl
@[simp] theorem drainThr_ctrl (s : State) : (drainThr s).ctrl = s.ctrl := rfl
@[simp] theorem drainThr_div (s : State) : (drainThr s).div = s.div := rfl
@[simp] theorem drainThr_thr (s : State) : (drainThr s).thr = s.thr := rfl
@[simp] theorem drainThr_thrf (s : State) : (drainThr s).thrf = false := rfl
@[simp] theorem drainThr_rdr (s : State) : (drainThr s).rdr = s.rdr := rfl
@[simp] theorem drainThr_rxf (s : State) : (drainThr s).rxf = s.rxf := rfl
@[simp] theorem drainThr_app (s : State) : (drainThr s).app = s.app := rfl
@[simp] theorem drainThr_refused (s : State) : (drainThr s).refused = s.refused := rfl
@[simp] theorem drainThr_lineOut (s : State) : (drainThr s).lineOut = s.lineOut ++ [s.thr] := rfl
@[simp] theorem drainThr_respLog (s : State) : (drainThr s).respLog = s.respLog := rfl
@[simp] theorem drainThr_schedule (s : State) : (drainThr s).schedule = s.schedule := rfl
@[simp] theorem drainThr_draws (s : State) : (drainThr s).draws = s.draws := rfl

/-! ## ackRdr -/

@[simp] theorem ackRdr_cfg (s : State) : (ackRdr s).cfg = s.cfg := rfl
@[simp] theorem ackRdr_rx (s : State) : (ackRdr s).rx = s.rx := rfl
@[simp] theorem ackRdr_tx (s : State) : (ackRdr s).tx = s.tx := rfl
@[simp] theorem ackRdr_ctrl (s : State) : (ackRdr s).ctrl = s.ctrl := rfl
@[simp] theorem ackRdr_div (s : State) : (ackRdr s).div = s.div := rfl
@[simp] theorem ackRdr_thr (s : State) : (ackRdr s).thr = s.thr := rfl
@[simp] theorem ackRdr_thrf (s : State) : (ackRdr s).thrf = s.thrf := rfl
@[simp] theorem ackRdr_rdr (s : State) : (ackRdr s).rdr = s.rdr := rfl
@[simp] theorem ackRdr_rxf (s : State) : (ackRdr s).rxf = false := rfl
@[simp] theorem ackRdr_app (s : State) : (ackRdr s).app = s.app := rfl
@[simp] theorem ackRdr_refused (s : State) : (ackRdr s).refused = s.refused := rfl
@[simp] theorem ackRdr_lineOut (s : State) : (ackRdr s).lineOut = s.lineOut := rfl
@[simp] theorem ackRdr_respLog (s : State) : (ackRdr s).respLog = s.respLog := rfl
@[simp] theorem ackRdr_schedule (s : State) : (ackRdr s).schedule = s.schedule := rfl
@[simp] theorem ackRdr_draws (s : State) : (ackRdr s).draws = s.draws := rfl

/-! ## fillRdr -/

@[simp] theorem fillRdr_cfg (d : Byte) (s : State) : (fillRdr d s).cfg = s.cfg := rfl
@[simp] theorem fillRdr_rx (d : Byte) (s : State) : (fillRdr d s).rx = s.rx := rfl
@[simp] theorem fillRdr_tx (d : Byte) (s : State) : (fillRdr d s).tx = s.tx := rfl
@[simp] theorem fillRdr_ctrl (d : Byte) (s : State) : (fillRdr d s).ctrl = s.ctrl := rfl
@[simp] theorem fillRdr_div (d : Byte) (s : State) : (fillRdr d s).div = s.div := rfl
@[simp] theorem fillRdr_thr (d : Byte) (s : State) : (fillRdr d s).thr = s.thr := rfl
@[simp] theorem fillRdr_thrf (d : Byte) (s : State) : (fillRdr d s).thrf = s.thrf := rfl
@[simp] theorem fillRdr_rdr (d : Byte) (s : State) : (fillRdr d s).rdr = d := rfl
@[simp] theorem fillRdr_rxf (d : Byte) (s : State) : (fillRdr d s).rxf = true := rfl
@[simp] theorem fillRdr_app (d : Byte) (s : State) : (fillRdr d s).app = s.app := rfl
@[simp] theorem fillRdr_refused (d : Byte) (s : State) : (fillRdr d s).refused = s.refused := rfl
@[simp] theorem fillRdr_lineOut (d : Byte) (s : State) : (fillRdr d s).lineOut = s.lineOut := rfl
@[simp] theorem fillRdr_respLog (d : Byte) (s : State) : (fillRdr d s).respLog = s.respLog := rfl
@[simp] theorem fillRdr_schedule (d : Byte) (s : State) : (fillRdr d s).schedule = s.schedule := rfl
@[simp] theorem fillRdr_draws (d : Byte) (s : State) : (fillRdr d s).draws = s.draws := rfl

/-! ## setRxTail -/

@[simp] theorem setRxTail_cfg (t : Nat) (s : State) : (setRxTail t s).cfg = s.cfg := rfl
@[simp] theorem setRxTail_rx (t : Nat) (s : State) : (setRxTail t s).rx = ⟨s.rx.buf, s.rx.head, t⟩ := rfl
@[simp] theorem setRxTail_tx (t : Nat) (s : State) : (setRxTail t s).tx = s.tx := rfl
@[simp] theorem setRxTail_ctrl (t : Nat) (s : State) : (setRxTail t s).ctrl = s.ctrl := rfl
@[simp] theorem setRxTail_div (t : Nat) (s : State) : (setRxTail t s).div = s.div := rfl
@[simp] theorem setRxTail_thr (t : Nat) (s : State) : (setRxTail t s).thr = s.thr := rfl
@[simp] theorem setRxTail_thrf (t : Nat) (s : State) : (setRxTail t s).thrf = s.thrf := rfl
@[simp] theorem setRxTail_rdr (t : Nat) (s : State) : (setRxTail t s).rdr = s.rdr := rfl
@[simp] theorem setRxTail_rxf (t : Nat) (s : State) : (setRxTail t s).rxf = s.rxf := rfl
@[simp] theorem setRxTail_app (t : Nat) (s : State) : (setRxTail t s).app = s.app := rfl
@[simp] theorem setRxTail_refused (t : Nat) (s : State) : (setRxTail t s).refused = s.refused := rfl
@[simp] theorem setRxTail_lineOut (t : Nat) (s : State) : (setRxTail t s).lineOut = s.lineOut := rfl
@[simp] theorem setRxTail_respLog (t : Nat) (s : State) : (setRxTail t s).respLog = s.respLog := rfl
@[simp] theorem setRxTail_schedule (t : Nat) (s : State) : (setRxTail t s).schedule = s.schedule := rfl
@[simp] theorem setRxTail_draws (t : Nat) (s : State) : (setRxTail t s).draws = s.draws := rfl

/-! ## setTxTail -/

@[simp] theorem setTxTail_cfg (t : Nat) (s : State) : (setTxTail t s).cfg = s.cfg := rfl
@[simp] theorem setTxTail_rx (t : Nat) (s : State) : (setTxTail t s).rx = s.rx := rfl
@[simp] theorem setTxTail_tx (t : Nat) (s : State) : (setTxTail t s).tx = ⟨s.tx.buf, s.tx.head, t⟩ := rfl
@[simp] theorem setTxTail_ctrl (t : Nat) (s : State) : (setTxTail t s).ctrl = s.ctrl := rfl
@[simp] theorem setTxTail_div (t : Nat) (s : State) : (setTxTail t s).div = s.div := rfl
@[simp] theorem setTxTail_thr (t : Nat) (s : State) : (setTxTail t s).thr = s.thr := rfl
@[simp] theorem setTxTail_thrf (t : Nat) (s : State) : (setTxTail t s).thrf = s.thrf := rfl
@[simp] theorem setTxTail_rdr (t : Nat) (s : State) : (setTxTail t s).rdr = s.rdr := rfl
@[simp] theorem setTxTail_rxf (t : Nat) (s : State) : (setTxTail t s).rxf = s.rxf := rfl
@[simp] theorem setTxTail_app (t : Nat) (s : State) : (setTxTail t s).app = s.app := rfl
@[simp] theorem setTxTail_refused (t : Nat) (s : State) : (setTxTail t s).refused = s.refused := rfl
@[simp] theorem setTxTail_lineOut (t : Nat) (s : State) : (setTxTail t s).lineOut = s.lineOut := rfl
@[simp] theorem setTxTail_respLog (t : Nat) (s : State) : (setTxTail t s).respLog = s.respLog := rfl
@[simp] theorem setTxTail_schedule (t : Nat) (s : State) : (setTxTail t s).schedule = s.schedule := rfl
@[simp] theorem setTxTail_draws (t : Nat) (s : State) : (setTxTail t s).draws = s.draws := rfl

/-! ## setTxHead -/

@[simp] theorem setTxHead_cfg (h : Nat) (s : State) : (setTxHead h s).cfg = s.cfg := rfl
@[simp] theorem setTxHead_rx (h : Nat) (s : State) : (setTxHead h s).rx = s.rx := rfl
@[simp] theorem setTxHead_tx (h : Nat) (s : State) : (setTxHead h s).tx = ⟨s.tx.buf, h, s.tx.tail⟩ := rfl
@[simp] theorem setTxHead_ctrl (h : Nat) (s : State) : (setTxHead h s).ctrl = s.ctrl := rfl
@[simp] theorem setTxHead_div (h : Nat) (s : State) : (setTxHead h s).div = s.div := rfl
@[simp] theorem setTxHead_thr (h : Nat) (s : State) : (setTxHead h s).thr = s.thr := rfl
@[simp] theorem setTxHead_thrf (h : Nat) (s : State) : (setTxHead h s).thrf = s.thrf := rfl
@[simp] theorem setTxHead_rdr (h : Nat) (s : State) : (setTxHead h s).rdr = s.rdr := rfl
@[simp] theorem setTxHead_rxf (h : Nat) (s : State) : (setTxHead h s).rxf = s.rxf := rfl
@[simp] theorem setTxHead_app (h : Nat) (s : State) : (setTxHead h s).app = s.app := rfl
@[simp] theorem setTxHead_refused (h : Nat) (s : State) : (setTxHead h s).refused = s.refused := rfl
@[simp] theorem setTxHead_lineOut (h : Nat) (s : State) : (setTxHead h s).lineOut = s.lineOut := rfl
@[simp] theorem setTxHead_respLog (h : Nat) (s : State) : (setTxHead h s).respLog = s.respLog := rfl
@[simp] theorem setTxHead_schedule (h : Nat) (s : State) : (setTxHead h s).schedule = s.schedule := rfl
@[simp] theorem setTxHead_draws (h : Nat) (s : State) : (setTxHead h s).draws = s.draws := rfl

/-! ## setTxen -/

@[simp] theorem setTxen_cfg (s : State) : (setTxen s).cfg = s.cfg := rfl
@[simp] theorem setTxen_rx (s : State) : (setTxen s).rx = s.rx := rfl
@[simp] theorem setTxen_tx (s : State) : (setTxen s).tx = s.tx := rfl
@[simp] theorem setTxen_ctrl (s : State) : (setTxen s).ctrl = ⟨true, s.ctrl.rxen, s.ctrl.rxie, s.ctrl.txie⟩ := rfl
@[simp] theorem setTxen_div (s : State) : (setTxen s).div = s.div := rfl
@[simp] theorem setTxen_thr (s : State) : (setTxen s).thr = s.thr := rfl
@[simp] theorem setTxen_thrf (s : State) : (setTxen s).thrf = s.thrf := rfl
@[simp] theorem setTxen_rdr (s : State) : (setTxen s).rdr = s.rdr := rfl
@[simp] theorem setTxen_rxf (s : State) : (setTxen s).rxf = s.rxf := rfl
@[simp] theorem setTxen_app (s : State) : (setTxen s).app = s.app := rfl
@[simp] theorem setTxen_refused (s : State) : (setTxen s).refused = s.refused := rfl
@[simp] theorem setTxen_lineOut (s : State) : (setTxen s).lineOut = s.lineOut := rfl
@[simp] theorem setTxen_respLog (s : State) : (setTxen s).respLog = s.respLog := rfl
@[simp] theorem setTxen_schedule (s : State) : (setTxen s).schedule = s.schedule := rfl
@[simp] theorem setTxen_draws (s : State) : (setTxen s).draws = s.draws := rfl

/-! ## setRxen -/

@[simp] theorem setRxen_cfg (s : State) : (setRxen s).cfg = s.cfg := rfl
@[simp] theorem setRxen_rx (s : State) : (setRxen s).rx = s.rx := rfl
@[simp] theorem setRxen_tx (s : State) : (setRxen s).tx = s.tx := rfl
@[simp] theorem setRxen_ctrl (s : State) : (setRxen s).ctrl = ⟨s.ctrl.txen, true, s.ctrl.rxie, s.ctrl.txie⟩ := rfl
@[simp] theorem setRxen_div (s : State) : (setRxen s).div = s.div := rfl
@[simp] theorem setRxen_thr (s : State) : (setRxen s).thr = s.thr := rfl
@[simp] theorem setRxen_thrf (s : State) : (setRxen s).thrf = s.thrf := rfl
@[simp] theorem setRxen_rdr (s : State) : (setRxen s).rdr = s.rdr := rfl
@[simp] theorem setRxen_rxf (s : State) : (setRxen s).rxf = s.rxf := rfl
@[simp] theorem setRxen_app (s : State) : (setRxen s).app = s.app := rfl
@[simp] theorem setRxen_refused (s : State) : (setRxen s).refused = s.refused := rfl
@[simp] theorem setRxen_lineOut (s : State) : (setRxen s).lineOut = s.lineOut := rfl
@[simp] theorem setRxen_respLog (s : State) : (setRxen s).respLog = s.respLog := rfl
@[simp] theorem setRxen_schedule (s : State) : (setRxen s).schedule = s.schedule := rfl
@[simp] theorem setRxen_draws (s : State) : (setRxen s).draws = s.draws := rfl

/-! ## setRxie -/

@[simp] theorem setRxie_cfg (s : State) : (setRxie s).cfg = s.cfg := rfl
@[simp] theorem setRxie_rx (s : State) : (setRxie s).rx = s.rx := rfl
@[simp] theorem setRxie_tx (s : State) : (setRxie s).tx = s.tx := rfl
@[simp] theorem setRxie_ctrl (s : State) : (setRxie s).ctrl = ⟨s.ctrl.txen, s.ctrl.rxen, true, s.ctrl.txie⟩ := rfl
@[simp] theorem setRxie_div (s : State) : (setRxie s).div = s.div := rfl
@[simp] theorem setRxie_thr (s : State) : (setRxie s).thr = s.thr := rfl
@[simp] theorem setRxie_thrf (s : State) : (setRxie s).thrf = s.thrf := rfl
@[simp] theorem setRxie_rdr (s : State) : (setRxie s).rdr = s.rdr := rfl
@[simp] theorem setRxie_rxf (s : State) : (setRxie s).rxf = s.rxf := rfl
@[simp] theorem setRxie_app (s : State) : (setRxie s).app = s.app := rfl
@[simp] theorem setRxie_refused (s : State) : (setRxie s).refused = s.refused := rfl
@[simp] theorem setRxie_lineOut (s : State) : (setRxie s).lineOut = s.lineOut := rfl
@[simp] theorem setRxie_respLog (s : State) : (setRxie s).respLog = s.respLog := rfl
@[simp] theorem setRxie_schedule (s : State) : (setRxie s).schedule = s.schedule := rfl
@[simp] theorem setRxie_draws (s : State) : (setRxie s).draws = s.draws := rfl

/-! ## putTxie -/

@[simp] theorem putTxie_cfg (b : Bool) (s : State) : (putTxie b s).cfg = s.cfg := rfl
@[simp] theorem putTxie_rx (b : Bool) (s : State) : (putTxie b s).rx = s.rx := rfl
@[simp] theorem putTxie_tx (b : Bool) (s : State) : (putTxie b s).tx = s.tx := rfl
@[simp] theorem putTxie_ctrl (b : Bool) (s : State) : (putTxie b s).ctrl = ⟨s.ctrl.txen, s.ctrl.rxen, s.ctrl.rxie, b⟩ := rfl
@[simp] theorem putTxie_div (b : Bool) (s : State) : (putTxie b s).div = s.div := rfl
@[simp] theorem putTxie_thr (b : Bool) (s : State) : (putTxie b s).thr = s.thr := rfl
@[simp] theorem putTxie_thrf (b : Bool) (s : State) : (putTxie b s).thrf = s.thrf := rfl
@[simp] theorem putTxie_rdr (b : Bool) (s : State) : (putTxie b s).rdr = s.rdr := rfl
@[simp] theorem putTxie_rxf (b : Bool) (s : State) : (putTxie b s).rxf = s.rxf := rfl
@[simp] theorem putTxie_app (b : Bool) (s : State) : (putTxie b s).app = s.app := rfl
@[simp] theorem putTxie_refused (b : Bool) (s : State) : (putTxie b s).refused = s.refused := rfl
@[simp] theorem putTxie_lineOut (b : Bool) (s : State) : (putTxie b s).lineOut = s.lineOut := rfl
@[simp] theorem putTxie_respLog (b : Bool) (s : State) : (putTxie b s).respLog = s.respLog := rfl
@[simp] theorem putTxie_schedule (b : Bool) (s : State) : (putTxie b s).schedule = s.schedule := rfl
@[simp] theorem putTxie_draws (b : Bool) (s : State) : (putTxie b s).draws = s.draws := rfl

/-! ## takeWord -/

@[simp] theorem takeWord_cfg (rest : List OpWord) (s : State) : (takeWord rest s).cfg = s.cfg := rfl
@[simp] theorem takeWord_rx (rest : List OpWord) (s : State) : (takeWord rest s).rx = s.rx := rfl
@[simp] theorem takeWord_tx (rest : List OpWord) (s : State) : (takeWord rest s).tx = s.tx := rfl
@[simp] theorem takeWord_ctrl (rest : List OpWord) (s : State) : (takeWord rest s).ctrl = s.ctrl := rfl
@[simp] theorem takeWord_div (rest : List OpWord) (s : State) : (takeWord rest s).div = s.div := rfl
@[simp] theorem takeWord_thr (rest : List OpWord) (s : State) : (takeWord rest s).thr = s.thr := rfl
@[simp] theorem takeWord_thrf (rest : List OpWord) (s : State) : (takeWord rest s).thrf = s.thrf := rfl
@[simp] theorem takeWord_rdr (rest : List OpWord) (s : State) : (takeWord rest s).rdr = s.rdr := rfl
@[simp] theorem takeWord_rxf (rest : List OpWord) (s : State) : (takeWord rest s).rxf = s.rxf := rfl
@[simp] theorem takeWord_app (rest : List OpWord) (s : State) : (takeWord rest s).app = s.app := rfl
@[simp] theorem takeWord_refused (rest : List OpWord) (s : State) : (takeWord rest s).refused = s.refused := rfl
@[simp] theorem takeWord_lineOut (rest : List OpWord) (s : State) : (takeWord rest s).lineOut = s.lineOut := rfl
@[simp] theorem takeWord_respLog (rest : List OpWord) (s : State) : (takeWord rest s).respLog = s.respLog := rfl
@[simp] theorem takeWord_schedule (rest : List OpWord) (s : State) : (takeWord rest s).schedule = rest := rfl
@[simp] theorem takeWord_draws (rest : List OpWord) (s : State) : (takeWord rest s).draws = s.draws := rfl

/-! ## thrWrite -/

@[simp] theorem thrWrite_cfg (v : Byte) (s : State) : (thrWrite v s).cfg = s.cfg := by
  unfold thrWrite; split <;> [split; skip] <;> rfl
@[simp] theorem thrWrite_rx (v : Byte) (s : State) : (thrWrite v s).rx = s.rx := by
  unfold thrWrite; split <;> [split; skip] <;> rfl
@[simp] theorem thrWrite_tx (v : Byte) (s : State) : (thrWrite v s).tx = s.tx := by
  unfold thrWrite; split <;> [split; skip] <;> rfl
@[simp] theorem thrWrite_ctrl (v : Byte) (s : State) : (thrWrite v s).ctrl = s.ctrl := by
  unfold thrWrite; split <;> [split; skip] <;> rfl
@[simp] theorem thrWrite_div (v : Byte) (s : State) : (thrWrite v s).div = s.div := by
  unfold thrWrite; split <;> [split; skip] <;> rfl
@[simp] theorem thrWrite_rdr (v : Byte) (s : State) : (thrWrite v s).rdr = s.rdr := by
  unfold thrWrite; split <;> [split; skip] <;> rfl
@[simp] theorem thrWrite_rxf (v : Byte) (s : State) : (thrWrite v s).rxf = s.rxf := by
  unfold thrWrite; split <;> [split; skip] <;> rfl
@[simp] theorem thrWrite_app (v : Byte) (s : State) : (thrWrite v s).app = s.app := by
  unfold thrWrite; split <;> [split; skip] <;> rfl
@[simp] theorem thrWrite_refused (v : Byte) (s : State) : (thrWrite v s).refused = s.refused := by
  unfold thrWrite; split <;> [split; skip] <;> rfl
@[simp] theorem thrWrite_lineOut (v : Byte) (s : State) : (thrWrite v s).lineOut = s.lineOut := by
  unfold thrWrite; split <;> [split; skip] <;> rfl
@[simp] theorem thrWrite_respLog (v : Byte) (s : State) : (thrWrite v s).respLog = s.respLog := by
  unfold thrWrite; split <;> [split; skip] <;> rfl
@[simp] theorem thrWrite_schedule (v : Byte) (s : State) : (thrWrite v s).schedule = s.schedule := by
  unfold thrWrite; split <;> [split; skip] <;> rfl
@[simp] theorem thrWrite_draws (v : Byte) (s : State) : (thrWrite v s).draws = s.draws := by
  unfold thrWrite; split <;> [split; skip] <;> rfl

/-- In every case `THRF = 1` afterwards (42_transmit.md R221). -/
@[simp] theorem thrWrite_thrf (v : Byte) (s : State) : (thrWrite v s).thrf = true := by
  unfold thrWrite
  split
  · next h => split <;> exact h
  · rfl

/-- A write to an empty THR stores its byte (42_transmit.md R221). -/
theorem thrWrite_empty (v : Byte) {s : State} (h : s.thrf = false) : thrWrite v s = { s with thr := v, thrf := true } := by
  simp [thrWrite, h]

end Sys2Proof.Machine
end

