-- ==== Sys2Proof/Laws/Exec.lean ====
section
/-! SUPPORT. What each shared operation and each meaning can do, said once: the cases of a next state. A proof about a
transition cites these instead of unfolding `exec`. -/

namespace Sys2Proof.Machine

/-- `ThrWrite`, by cases (42_transmit.md R221). -/
theorem thrWrite_cases (v : Byte) (s : State) :
    (s.thrf = false ∧ thrWrite v s = { s with thr := v, thrf := true }) ∨
    (s.thrf = true ∧ s.cfg.thrFullWrite = .overwrite ∧ thrWrite v s = { s with thr := v }) ∨
    (s.thrf = true ∧ s.cfg.thrFullWrite = .drop ∧ thrWrite v s = s) := by
  cases hf : s.thrf <;> cases hp : s.cfg.thrFullWrite <;> simp [thrWrite, hf, hp]

/-- A draw gives one of its two values and counts one draw. -/
theorem drawOf_cases (a b : Nat) (s : State) :
    ((drawOf a b s).1 = a ∨ (drawOf a b s).1 = b) ∧ (drawOf a b s).2 = { s with draws := s.draws + 1 } := by
  refine ⟨?_, rfl⟩
  simp only [drawOf]
  split
  · exact .inr rfl
  · exact .inl rfl

/-- Issue, by cases (43_driver.md R243). -/
theorem issue_eq (first : App) (s : State) :
    issue first s = .next (if s.app.isBusy then refuse s else goTo first s) := by
  unfold issue
  cases s.app <;> rfl

/-- A firing of RXH, by cases (41_receive.md R162). -/
theorem execRxh_cases {s t : State} (h : execRxh s = .next t) :
    rxhEnabled s = true ∧
    ((s.rx.isFull s.cfg.rxCap = true ∧ t = ackRdr s) ∨
     (s.rx.isFull s.cfg.rxCap = false ∧ s.rx.head < s.cfg.rxCap ∧
       t = { ackRdr s with rx := ⟨s.rx.buf.set s.rx.head s.rdr, next s.cfg.rxCap s.rx.head, s.rx.tail⟩ })) := by
  unfold execRxh at h
  split at h
  · next he =>
    refine ⟨he, ?_⟩
    unfold rxhBody at h
    split at h
    · next hf => exact .inl ⟨hf, by cases h; rfl⟩
    · next hf =>
      by_cases hl : s.rx.head < s.cfg.rxCap
      · simp only [memWrite, if_pos hl] at h
        exact .inr ⟨by simpa using hf, hl, by cases h; rfl⟩
      · simp [memWrite, if_neg hl] at h
  · cases h

/-- A firing of TXH, by cases (42_transmit.md R212). -/
theorem execTxh_cases {s t : State} (h : execTxh s = .next t) :
    txhEnabled s = true ∧ s.tx.tail < s.cfg.txCap ∧
    ((next s.cfg.txCap s.tx.tail = s.tx.head ∧
       t = putTxie false (setTxTail (next s.cfg.txCap s.tx.tail) (thrWrite (s.tx.buf.get s.tx.tail) s))) ∨
     (next s.cfg.txCap s.tx.tail ≠ s.tx.head ∧
       t = setTxTail (next s.cfg.txCap s.tx.tail) (thrWrite (s.tx.buf.get s.tx.tail) s))) := by
  unfold execTxh at h
  split at h
  · next he =>
    unfold txhBody at h
    by_cases hl : s.tx.tail < s.cfg.txCap
    · simp only [memRead, if_pos hl] at h
      refine ⟨he, hl, ?_⟩
      split at h
      · next hn => exact .inl ⟨hn, by cases h; rfl⟩
      · next hn => exact .inr ⟨hn, by cases h; rfl⟩
    · simp [memRead, if_neg hl] at h
  · cases h

/-- LINE_TX, by cases (42_transmit.md R220). -/
theorem execLineTx_cases {s t : State} (h : execLineTx s = .next t) :
    s.ctrl.txen = true ∧ s.thrf = true ∧ t = drainThr s := by
  unfold execLineTx at h
  split at h
  · next he =>
    simp only [lineTxEnabled, Bool.and_eq_true] at he
    exact ⟨he.1, he.2, by cases h; rfl⟩
  · cases h

/-- LINE_RX, by cases: the byte reaches `RDR`, or is lost without a trace (41_receive.md R160). -/
theorem execLineRx_cases (d : Byte) (s : State) :
    (s.ctrl.rxen = true ∧ (s.rxf = false ∨ s.cfg.overrunPolicy = .overwrite) ∧ execLineRx d s = .next (fillRdr d s)) ∨
    ((s.ctrl.rxen = false ∨ (s.rxf = true ∧ s.cfg.overrunPolicy = .dropNew)) ∧ execLineRx d s = .next s) := by
  cases he : s.ctrl.rxen <;> cases hf : s.rxf <;> cases hp : s.cfg.overrunPolicy <;> simp [execLineRx, he, hf, hp]

/-- What a STEP of the App can do, stage by stage (43_driver.md R242, R244). -/
inductive AppStep (s : State) : State → Prop where
  | i1 {baud : Baud} (h : s.app = .init .i1 baud) :
    AppStep s (goTo (.init .i2 baud) { s with div := (Config.divisorOf s.cfg.divW baud).toNat })
  | i2 {baud : Baud} (h : s.app = .init .i2 baud) : AppStep s (goTo (.init .i3 baud) (setTxen s))
  | i3 {baud : Baud} (h : s.app = .init .i3 baud) : AppStep s (goTo (.init .i4 baud) (setRxen s))
  | i4 {baud : Baud} (h : s.app = .init .i4 baud) : AppStep s (finish (respWord (.done .init)) (setRxie s))
  | w1Hw {b : Byte} (h : s.app = .write .w1 b) (hc : s.cfg.directCheckOrder = .hwFirst) :
    AppStep s (goTo (.write (.w2 (.hw (!s.thrf))) b) s)
  | w1Ring {b : Byte} (h : s.app = .write .w1 b) (hc : s.cfg.directCheckOrder = .ringFirst) :
    AppStep s (goTo (.write (.w2 (.ring s.tx.head s.tx.tail)) b) s)
  | w2Direct {first : FirstRead} {b : Byte} {e : Bool} {p q : Nat} (h : s.app = .write (.w2 first) b)
      (ht : directTest first s = (e, p, q)) (he : e = true) (hpq : p = q) :
    AppStep s (goTo (.write (.wd e p q) b) s)
  | w2Buffered {first : FirstRead} {b : Byte} {e : Bool} {p q : Nat} (h : s.app = .write (.w2 first) b)
      (ht : directTest first s = (e, p, q)) (hne : e = true → p ≠ q) :
    AppStep s (goTo (.write (.ws ⟨e, p, q, next s.cfg.txCap p⟩) b) s)
  | wd {e : Bool} {p q : Nat} {b : Byte} (h : s.app = .write (.wd e p q) b) :
    AppStep s (finish (respWord (.done .write)) (thrWrite b s))
  | wsPass {l : WriteLocals} {b : Byte} (h : s.app = .write (.ws l) b) (hne : l.nh ≠ s.tx.tail) :
    AppStep s (goTo (.write (.wm { l with t := s.tx.tail }) b) s)
  | wsSpin {l : WriteLocals} {b : Byte} (h : s.app = .write (.ws l) b) (heq : l.nh = s.tx.tail) : AppStep s s
  | wm {l : WriteLocals} {b : Byte} (h : s.app = .write (.wm l) b) (hl : l.h < s.cfg.txCap) :
    AppStep s (goTo (.write (.wh l) b) { s with tx := ⟨s.tx.buf.set l.h b, s.tx.head, s.tx.tail⟩ })
  | wh {l : WriteLocals} {b : Byte} (h : s.app = .write (.wh l) b) :
    AppStep s (goTo (.write (.we l) b) (setTxHead l.nh s))
  | we {l : WriteLocals} {b : Byte} (h : s.app = .write (.we l) b) :
    AppStep s (finish (respWord (.done .write)) (putTxie true s))
  | a1 (h : s.app = .avail .a1) : AppStep s (finish (respWord (.avail (!s.rx.isEmpty))) s)
  | rd1NoData (h : s.app = .read .rd1)
      (he : s.rx.isEmpty = (s.cfg.readPolarity == .contract)) : AppStep s (finish (respWord .noData) s)
  | rd1Data (h : s.app = .read .rd1)
      (he : s.rx.isEmpty = (s.cfg.readPolarity == .inverted)) :
    AppStep s (goTo (.read (.rd2 s.rx.head s.rx.tail)) s)
  | rd2 {p q : Nat} (h : s.app = .read (.rd2 p q)) (hq : q < s.cfg.rxCap) :
    AppStep s (goTo (.read (.rd3 p q (s.rx.buf.get q))) s)
  | rd3Contract {p q : Nat} {v : Byte} (h : s.app = .read (.rd3 p q v)) (hc : s.cfg.readPolarity = .contract) :
    AppStep s (finish (respWord (.data v)) (setRxTail (next s.cfg.rxCap q) s))
  | rd3Inverted {p q : Nat} {v : Byte} (h : s.app = .read (.rd3 p q v)) (hc : s.cfg.readPolarity = .inverted) :
    AppStep s (finish (respWord (.data v))
      (setRxTail (drawOf q (next s.cfg.rxCap q) s).1 (drawOf q (next s.cfg.rxCap q) s).2))
  | f1 (h : s.app = .flush .f1) : AppStep s (goTo (.flush (.f2 s.rx.head)) s)
  | f2 {p : Nat} (h : s.app = .flush (.f2 p)) : AppStep s (finish (respWord (.done .flush)) (setRxTail p s))

/-- A STEP that gives a next state is one of the stages. -/
theorem execStep_cases {s t : State} (h : execStep s = .next t) : AppStep s t := by
  unfold execStep at h
  split at h
  case h_1 => cases h
  case h_2 ha => cases h; exact .i1 ha
  case h_3 ha => cases h; exact .i2 ha
  case h_4 ha => cases h; exact .i3 ha
  case h_5 ha => cases h; exact .i4 ha
  case h_6 ha =>
    unfold stageW1 at h
    split at h
    · next hc => cases h; exact .w1Hw ha hc
    · next hc => cases h; exact .w1Ring ha hc
  case h_7 first b ha =>
    unfold stageW2 at h
    split at h
    next e p q ht =>
    split at h
    · next hd =>
      simp only [Bool.and_eq_true, beq_iff_eq] at hd
      cases h
      exact .w2Direct ha ht hd.1 hd.2
    · next hd =>
      simp only [Bool.and_eq_true, beq_iff_eq, not_and] at hd
      cases h
      exact .w2Buffered ha ht hd
  case h_8 ha => cases h; exact .wd ha
  case h_9 ha =>
    unfold stageWs at h
    split at h
    · next hne => cases h; exact .wsPass ha hne
    · next heq => cases h; exact .wsSpin ha (not_not.mp heq)
  case h_10 l b ha =>
    unfold stageWm at h
    by_cases hl : l.h < s.cfg.txCap
    · simp only [memWrite, if_pos hl] at h
      cases h
      exact .wm ha hl
    · simp [memWrite, if_neg hl] at h
  case h_11 ha => cases h; exact .wh ha
  case h_12 ha => cases h; exact .we ha
  case h_13 ha => cases h; exact .a1 ha
  case h_14 ha =>
    unfold stageRd1 at h
    cases hp : s.cfg.readPolarity <;> cases he : s.rx.isEmpty <;> simp [hp, he] at h <;> subst h
    · exact .rd1Data ha (by simp [he, hp])
    · exact .rd1NoData ha (by simp [he, hp])
    · exact .rd1NoData ha (by simp [he, hp])
    · exact .rd1Data ha (by simp [he, hp])
  case h_15 p q ha =>
    unfold stageRd2 at h
    by_cases hq : q < s.cfg.rxCap
    · simp only [memRead, if_pos hq] at h
      cases h
      exact .rd2 ha hq
    · simp [memRead, if_neg hq] at h
  case h_16 ha =>
    unfold stageRd3 at h
    split at h
    · next hc => cases h; exact .rd3Contract ha hc
    · next hc => cases h; exact .rd3Inverted ha hc
  case h_17 ha => cases h; exact .f1 ha
  case h_18 ha => cases h; exact .f2 ha

/-- A step that can happen now has its guard. -/
theorem guardHolds_of_enabled {i : Instr} {s : State} (h : enabled i s = true) : guardHolds i s = true := by
  cases i <;> simp_all [enabled, guardHolds, rxhEnabled, txhEnabled]

/-- Under `ANY` the guard is all a step needs (60_exceptions.md R265). -/
theorem enabled_eq_guardHolds {s : State} (h : s.cfg.handlerArb = .any) (i : Instr) : enabled i s = guardHolds i s := by
  cases i <;> simp [enabled, guardHolds, rxhEnabled, txhEnabled, h]

/-- Whichever order `HANDLER_ARB` fixes, no handler can fire exactly where neither guard holds: a state is quiescent by
the guards exactly where it is by the turns (60_exceptions.md R282). -/
theorem quiescent_eq_guards (s : State) :
    quiescent s = (!s.app.isBusy && !rxhGuard s && !txhGuard s && !lineTxEnabled s) := by
  unfold quiescent rxhEnabled txhEnabled
  cases rxhGuard s <;> cases txhGuard s <;> cases s.cfg.handlerArb <;> simp

/-- The transitions of a list of instructions, one at a time. -/
theorem execAll_cons_next {i : Instr} {is : List Instr} {s u : State} :
    execAll (i :: is) s = .next u ↔ ∃ t, exec i s = .next t ∧ execAll is t = .next u := by
  simp only [execAll]
  cases exec i s <;> simp

/-- The transitions of two lists, one after the other. -/
theorem execAll_append_next {is js : List Instr} {s u : State} :
    execAll (is ++ js) s = .next u ↔ ∃ t, execAll is s = .next t ∧ execAll js t = .next u := by
  induction is generalizing s with
  | nil => simp [execAll]
  | cons i is ih => simp only [List.cons_append, execAll_cons_next, ih]; tauto

/-- A property that every transition keeps holds after any run. -/
theorem execAll_induct {P : State → Prop} (hstep : ∀ i s t, P s → exec i s = .next t → P t) {is : List Instr}
    {s t : State} (hs : P s) (h : execAll is s = .next t) : P t := by
  induction is generalizing s with
  | nil => cases h; exact hs
  | cons i is ih =>
    obtain ⟨u, hu, ht⟩ := execAll_cons_next.mp h
    exact ih (hstep i s u hs hu) ht

end Sys2Proof.Machine
end

