-- ==== Sys2Proof/Laws/Memory.lean ====
section
/-! SUPPORT. Laws of ring storage: what a read after a write gives, and that every operation keeps the canonical form. -/

namespace Sys2Proof.Machine

theorem Memory.get_nil (i : Nat) : Memory.get [] i = Memory.unlisted := rfl

/-- A slot below every listed address reads as unlisted. -/
theorem Memory.get_of_lt_wfFrom {lo cap : Nat} {m : Memory} (h : m.wfFrom lo cap = true) {i : Nat} (hi : i < lo) :
    m.get i = Memory.unlisted := by
  induction m generalizing lo with
  | nil => rfl
  | cons c m ih =>
    obtain ⟨a, v⟩ := c
    simp only [Memory.wfFrom, Bool.and_eq_true, decide_eq_true_eq] at h
    have hne : i ≠ a := by omega
    simp only [Memory.get, if_neg hne]
    exact ih h.2 (by omega)

/-- The canonical form from an address on is canonical from any lower one. -/
theorem Memory.wfFrom_mono {lo lo' cap : Nat} {m : Memory} (h : m.wfFrom lo cap = true) (hle : lo' ≤ lo) :
    m.wfFrom lo' cap = true := by
  cases m with
  | nil => rfl
  | cons c m =>
    obtain ⟨a, v⟩ := c
    simp only [Memory.wfFrom, Bool.and_eq_true, decide_eq_true_eq] at h ⊢
    exact ⟨⟨⟨by omega, h.1.1.2⟩, h.1.2⟩, h.2⟩

/-- A slot read after it was written holds the byte written. -/
theorem Memory.get_set_same {lo cap : Nat} {m : Memory} (h : m.wfFrom lo cap = true) (i : Nat) (v : Byte) :
    (m.set i v).get i = v := by
  induction m generalizing lo with
  | nil => by_cases hv : v = Memory.unlisted <;> simp [Memory.set, Memory.get, hv]
  | cons c m ih =>
    obtain ⟨a, w⟩ := c
    simp only [Memory.wfFrom, Bool.and_eq_true, decide_eq_true_eq] at h
    by_cases hlt : i < a
    · by_cases hv : v = Memory.unlisted
      · have hne : i ≠ a := by omega
        simpa [Memory.set, Memory.get, hlt, hv, hne] using Memory.get_of_lt_wfFrom h.2 (by omega : i < a + 1)
      · simp [Memory.set, Memory.get, hlt, hv]
    · by_cases heq : i = a
      · subst heq
        by_cases hv : v = Memory.unlisted
        · simpa [Memory.set, hv] using Memory.get_of_lt_wfFrom h.2 (by omega : i < i + 1)
        · simp [Memory.set, Memory.get, hv]
      · simpa [Memory.set, Memory.get, hlt, heq] using ih h.2

/-- A write leaves every other slot alone. -/
theorem Memory.get_set_other (m : Memory) {i j : Nat} (v : Byte) (hij : j ≠ i) : (m.set i v).get j = m.get j := by
  induction m with
  | nil => by_cases hv : v = Memory.unlisted <;> simp [Memory.set, Memory.get, hv, hij]
  | cons c m ih =>
    obtain ⟨a, w⟩ := c
    simp only [Memory.set]
    split
    · split <;> simp [Memory.get, hij]
    · split
      · next heq => subst heq; split <;> simp [Memory.get, hij]
      · simp only [Memory.get, ih]

/-- A write to a slot of the ring keeps the canonical form. -/
theorem Memory.set_wfFrom {lo cap : Nat} {m : Memory} (h : m.wfFrom lo cap = true) {i : Nat} (hlo : lo ≤ i)
    (hi : i < cap) (v : Byte) : (m.set i v).wfFrom lo cap = true := by
  induction m generalizing lo with
  | nil => by_cases hv : v = Memory.unlisted <;> simp [Memory.set, Memory.wfFrom, hv, hlo, hi]
  | cons c m ih =>
    obtain ⟨a, w⟩ := c
    have h' := h
    simp only [Memory.wfFrom, Bool.and_eq_true, decide_eq_true_eq] at h'
    simp only [Memory.set]
    split
    · split
      · exact h
      · next hv =>
        simp only [Memory.wfFrom, Bool.and_eq_true, decide_eq_true_eq]
        exact ⟨⟨⟨hlo, hi⟩, hv⟩, ⟨⟨by omega, h'.1.1.2⟩, h'.1.2⟩, h'.2⟩
    · split
      · split
        · exact Memory.wfFrom_mono h'.2 (by omega)
        · next hv =>
          simp only [Memory.wfFrom, Bool.and_eq_true, decide_eq_true_eq]
          exact ⟨⟨⟨hlo, hi⟩, hv⟩, Memory.wfFrom_mono h'.2 (by omega)⟩
      · simp only [Memory.wfFrom, Bool.and_eq_true, decide_eq_true_eq]
        exact ⟨h'.1, ih h'.2 (by omega)⟩

/-- `MemWrite` keeps the canonical form. -/
theorem memWrite_wf {cap i : Nat} {m m' : Memory} {v : Byte} (h : m.wf cap = true)
    (hw : memWrite cap m i v = some m') : m'.wf cap = true := by
  simp only [memWrite] at hw
  split at hw
  · next hi => cases hw; exact Memory.set_wfFrom h (Nat.zero_le i) hi v
  · cases hw

/-- The storage built from a list of bytes is canonical. -/
theorem Memory.ofBytesFrom_wfFrom (cap : Nat) (bs : List Byte) (a : Nat) (h : a + bs.length ≤ cap) :
    (Memory.ofBytesFrom a bs).wfFrom a cap = true := by
  induction bs generalizing a with
  | nil => rfl
  | cons b bs ih =>
    simp only [List.length_cons] at h
    simp only [Memory.ofBytesFrom]
    split
    · exact Memory.wfFrom_mono (ih (a + 1) (by omega)) (by omega)
    · next hb =>
      simp only [Memory.wfFrom, Bool.and_eq_true, decide_eq_true_eq]
      exact ⟨⟨⟨Nat.le_refl a, by omega⟩, hb⟩, ih (a + 1) (by omega)⟩

/-- The storage built from a list of bytes reads as that list. -/
theorem Memory.get_ofBytesFrom (bs : List Byte) (a k : Nat) :
    (Memory.ofBytesFrom a bs).get (a + k) = bs.getD k Memory.unlisted := by
  induction bs generalizing a k with
  | nil => rfl
  | cons b bs ih =>
    have hlow : ∀ c, (Memory.ofBytesFrom (a + 1) bs).get c = Memory.unlisted ∨ a + 1 ≤ c := by
      intro c
      by_cases hc : a + 1 ≤ c
      · exact .inr hc
      · exact .inl (Memory.get_of_lt_wfFrom
          (Memory.ofBytesFrom_wfFrom (a + 1 + bs.length) bs (a + 1) (Nat.le_refl _)) (by omega))
    cases k with
    | zero =>
      have h0 : (Memory.ofBytesFrom (a + 1) bs).get a = Memory.unlisted := by
        rcases hlow a with h | h
        · exact h
        · omega
      by_cases hb : b = Memory.unlisted <;> simp [Memory.ofBytesFrom, Memory.get, hb, h0]
    | succ k =>
      have hk : a + (k + 1) = a + 1 + k := by omega
      by_cases hb : b = Memory.unlisted
      · simpa [Memory.ofBytesFrom, hb, hk] using ih (a + 1) k
      · have hne : a + 1 + k ≠ a := by omega
        simpa [Memory.ofBytesFrom, Memory.get, hb, hk, hne] using ih (a + 1) k

/-- The storage of a ring at reset is canonical. -/
theorem bufAtReset_wf (init : BufInit) (cap : Nat) (drawn : List Byte) : (bufAtReset init cap drawn).wf cap = true := by
  cases init with
  | zero => rfl
  | unspecified =>
    exact Memory.ofBytesFrom_wfFrom cap _ 0 (by simp only [List.length_take]; omega)

/-- The storages of `State.reset` list nothing and are canonical. -/
theorem reset_storage : State.reset.rx.buf = [] ∧ State.reset.tx.buf = [] ∧
    State.reset.rx.buf.wf State.reset.cfg.rxCap = true ∧ State.reset.tx.buf.wf State.reset.cfg.txCap = true := by decide

end Sys2Proof.Machine
end

