-- ==== Sys2Proof/Laws/PerInstr.lean ====
section
/-! SUPPORT. Statements about every instruction as syntax, one lemma per constructor: the encoded word selects the
instruction's own row of spec/opcode_table.json, and the instruction is well formed. -/

namespace Sys2Proof.Laws.EncodeSelectsRow

/-- The word of an instruction selects the row of its mnemonic, and its argument passes the check of R101. -/
def Statement (i : Instr) : Prop :=
  (∃ r ∈ opcodeTable, r.selects (encode i) = true ∧ r.mnemonic = mnemonicOf i) ∧
  argWellFormed (opOf i) (argOf i) = true ∧ i.wellFormed = true

/-- A byte in the low bits of an argument leaves the bits WRITE and LINE_RX reserve at 0 (30_encoding.md R101). -/
theorem byte_reserved (b : Byte) : b.zeroExtend 32 &&& 0xFFFFFF00#32 = 0#32 ∧ (b.zeroExtend 32).extractLsb' 8 24 = 0 := by
  revert b; decide

theorem init (baud : Baud) : Statement (.init baud) := by
  refine ⟨⟨⟨"INIT", 0x0100000000, 0xFF00000000⟩, by decide, ?_, rfl⟩, rfl, rfl⟩
  have h : (0x01#8 ++ baud) &&& (0xFF#8 ++ 0#32) = 0x01#8 ++ 0#32 := by rw [BitVec.and_append]; simp
  simpa [OpcodeRow.selects, encode, opOf, argOf] using h

theorem write (b : Byte) : Statement (.write b) := by
  refine ⟨⟨⟨"WRITE", 0x0200000000, 0xFFFFFFFF00⟩, by decide, ?_, rfl⟩, ?_, rfl⟩
  · have h : (0x02#8 ++ b.zeroExtend 32) &&& (0xFF#8 ++ 0xFFFFFF00#32) = 0x02#8 ++ 0#32 := by
      rw [BitVec.and_append, (byte_reserved b).1]; simp
    simpa [OpcodeRow.selects, encode, opOf, argOf] using h
  · simpa [argWellFormed, opOf, argOf] using (byte_reserved b).2

theorem avail : Statement .avail := by unfold Statement; decide
theorem read : Statement .read := by unfold Statement; decide
theorem flush : Statement .flush := by unfold Statement; decide
theorem step : Statement .step := by unfold Statement; decide
theorem rxh : Statement .rxh := by unfold Statement; decide
theorem txh : Statement .txh := by unfold Statement; decide

theorem lineRx (d : Byte) : Statement (.lineRx d) := by
  refine ⟨⟨⟨"LINE_RX", 0xC100000000, 0xFFFFFFFF00⟩, by decide, ?_, rfl⟩, ?_, rfl⟩
  · have h : (0xC1#8 ++ d.zeroExtend 32) &&& (0xFF#8 ++ 0xFFFFFF00#32) = 0xC1#8 ++ 0#32 := by
      rw [BitVec.and_append, (byte_reserved d).1]; simp
    simpa [OpcodeRow.selects, encode, opOf, argOf] using h
  · simpa [argWellFormed, opOf, argOf] using (byte_reserved d).2

theorem lineTx : Statement .lineTx := by unfold Statement; decide

end Sys2Proof.Laws.EncodeSelectsRow
end

