-- ==== Sys2Proof/Laws/Ring.lean ====
section
/-! SUPPORT. Laws of the index arithmetic and of a ring's contents, for the proofs about rings. -/

namespace Sys2Proof.Machine

theorem next_lt {cap : Nat} (h : 0 < cap) (i : Nat) : next cap i < cap := Nat.mod_lt _ h

theorem next_of_lt {cap i : Nat} (h : i + 1 < cap) : next cap i = i + 1 := Nat.mod_eq_of_lt h

theorem next_last {cap i : Nat} (h : i + 1 = cap) : next cap i = 0 := by simp [next, h]

/-- The successor, by cases. -/
theorem next_cases {cap i : Nat} (h : i < cap) : next cap i = if i + 1 = cap then 0 else i + 1 := by
  split
  · next he => exact next_last he
  · next he => exact next_of_lt (by omega)

/-- `(a - b) mod C` by cases, for indices below the capacity. -/
theorem subMod_cases {cap a b : Nat} (ha : a < cap) (hb : b < cap) :
    subMod cap a b = if b ≤ a then a - b else a + cap - b := by
  simp only [subMod, Nat.mod_eq_of_lt hb]
  split
  · next h =>
    rw [show a + (cap - b) = (a - b) + cap by omega, Nat.add_mod_right]
    exact Nat.mod_eq_of_lt (by omega)
  · next h =>
    rw [show a + (cap - b) = a + cap - b by omega]
    exact Nat.mod_eq_of_lt (by omega)

/-- An index below twice the capacity, wrapped. -/
theorem wrap_cases {cap k : Nat} (h : k < 2 * cap) : k % cap = if k < cap then k else k - cap := by
  split
  · next hk => exact Nat.mod_eq_of_lt hk
  · next hk =>
    rw [show k = (k - cap) + cap by omega, Nat.add_mod_right, Nat.mod_eq_of_lt (by omega)]
    omega

/-- The contents depend on the storage only through the slots that hold them. -/
theorem Ring.contents_congr {cap : Nat} {r r' : Ring} (hh : r'.head = r.head) (ht : r'.tail = r.tail)
    (hb : ∀ k, k < r.count cap → r'.buf.get ((r.tail + k) % cap) = r.buf.get ((r.tail + k) % cap)) :
    r'.contents cap = r.contents cap := by
  have hc : r'.count cap = r.count cap := by simp [Ring.count, hh, ht]
  simp only [Ring.contents, hc, ht]
  apply List.map_congr_left
  intro k hk
  exact hb k (List.mem_range.mp hk)

theorem Ring.length_contents (cap : Nat) (r : Ring) : (r.contents cap).length = r.count cap := by
  simp [Ring.contents]

end Sys2Proof.Machine
end

