-- ==== Sys2Proof/Tests/Slice0.lean ====
section
/-! SUPPORT. The model's own tests: smoke tests of the checks, words written out from the spec's encoding, one or two
single steps per instruction with the results of 95_test_vectors.md, and a witness for the hypotheses of each statement. -/

open Sys2Proof Sys2Proof.Machine

/-! ## Helpers -/

/-- The state of an outcome; `d` where there is none. -/
def Sys2Proof.Tests.nextOr (d : State) : Result → State
  | .next s => s
  | .fault _ => d
  | .refused _ => d

/-- The outcome is a next state. -/
def Sys2Proof.Tests.isNext : Result → Bool
  | .next _ => true
  | .fault _ => false
  | .refused _ => false

/-- The outcome is the given stop. -/
def Sys2Proof.Tests.stopsWith (f : Fault) : Result → Bool
  | .next _ => false
  | .fault g => f == g
  | .refused _ => false

open Sys2Proof.Tests

/-- After reset, with everything INIT enables enabled: `S_init` of 95_test_vectors.md less its divisor and response. -/
def Sys2Proof.Tests.ready : State := { State.reset with ctrl := ⟨true, true, true, false⟩ }

/-- `ready`, the rings in a given position. -/
def Sys2Proof.Tests.rings (rxBuf : Memory) (rxH rxT : Nat) (txBuf : Memory) (txH txT : Nat) : State :=
  { ready with rx := ⟨rxBuf, rxH, rxT⟩, tx := ⟨txBuf, txH, txT⟩ }

/-- A state's outcome of an instruction, or itself. -/
def Sys2Proof.Tests.after (i : Instr) (s : State) : State := nextOr s (exec i s)

/-! ## Checks refuse ill-formed terms -/

theorem test_arg_write_high_bits : argWellFormed 0x02 0x00000141 = false := by decide
theorem test_arg_lineRx_high_bits : argWellFormed 0xC1 0x00000100 = false := by decide
theorem test_arg_avail : argWellFormed 0x03 0x00000001 = false := by decide
theorem test_arg_read : argWellFormed 0x04 0x80000000 = false := by decide
theorem test_arg_flush : argWellFormed 0x05 0x00000100 = false := by decide
theorem test_arg_step : argWellFormed 0x40 0x00000001 = false := by decide
theorem test_arg_rxh : argWellFormed 0x81 0x00000041 = false := by decide
theorem test_arg_txh : argWellFormed 0x82 0x00000041 = false := by decide
theorem test_arg_lineTx : argWellFormed 0xC2 0x00000001 = false := by decide
theorem test_arg_unlisted_op : argWellFormed 0x00 0x00000000 = false := by decide

/-- RG-13: a ring of one slot is refused by 00_scope.md R7. -/
theorem test_config_tx_too_small : { Config.default with txCap := 1 : Config }.wf = false := by decide
theorem test_config_tx_not_below_rx : { Config.default with txCap := 8 : Config }.wf = false := by decide
theorem test_config_rx_over_index : { Config.default with idxW := 2 : Config }.wf = false := by decide
theorem test_config_no_index_bits : { Config.default with idxW := 0 : Config }.wf = false := by decide
theorem test_config_no_divisor_bits : { Config.default with divW := 0 : Config }.wf = false := by decide
theorem test_config_index_exactly_fits : { Config.default with rxCap := 256 : Config }.wf = true := by decide
theorem test_reset_refuses_bad_config :
    State.resetChecked { Config.default with txCap := 1 } ResetDraws.zero = none := by decide

/-! ## Words written out from the spec's encoding (30_encoding.md R100 to R102, R109) -/

/-- EN-1: `OP = 00000001`, `ARG` = 115200. -/
theorem test_decode_init :
    decode 0b0000000100000000000000011100001000000000#40 = .row (.init 115200) := by decide
/-- EN-4: `OP = 00000010`, `ARG[7:0] = 01000001`. -/
theorem test_decode_write :
    decode 0b0000001000000000000000000000000001000001#40 = .row (.write 0x41) := by decide
theorem test_decode_avail : decode 0b0000001100000000000000000000000000000000#40 = .row .avail := by decide
theorem test_decode_read : decode 0b0000010000000000000000000000000000000000#40 = .row .read := by decide
theorem test_decode_flush : decode 0b0000010100000000000000000000000000000000#40 = .row .flush := by decide
theorem test_decode_step : decode 0b0100000000000000000000000000000000000000#40 = .row .step := by decide
theorem test_decode_rxh : decode 0b1000000100000000000000000000000000000000#40 = .row .rxh := by decide
theorem test_decode_txh : decode 0b1000001000000000000000000000000000000000#40 = .row .txh := by decide
/-- EN-11: `OP = 11000001`, `ARG[7:0] = 11111111`. -/
theorem test_decode_lineRx :
    decode 0b1100000100000000000000000000000011111111#40 = .row (.lineRx 0xFF) := by decide
theorem test_decode_lineTx : decode 0b1100001000000000000000000000000000000000#40 = .row .lineTx := by decide
/-- EN-13, EN-14. -/
theorem test_decode_unlisted : decode 0x0000000000 = .reserved .unlistedOp ∧ decode 0xC300000000 = .reserved .unlistedOp :=
  by decide
/-- EN-5, EN-15. -/
theorem test_decode_nonzero_arg :
    decode 0x0200000141 = .reserved .nonzeroArg ∧ decode 0xC100000100 = .reserved .nonzeroArg := by decide
theorem test_encode_written_words :
    encode (.init 115200) = 0x010001C200 ∧ encode (.write 0x41) = 0x0200000041 ∧ encode .lineTx = 0xC200000000 := by decide
theorem test_table_word : decodeTableWord 40 0x0200000041 = some (.write 0x41) ∧ decodeTableWord 40 0x0300000001 = none ∧
    decodeTableWord 48 0x010300000000 = none := by decide
/-- The table's rows are told apart by their `OP`: no word can select two (30_encoding.md R105). -/
theorem test_table_rows_differ : (opcodeTable.map fun r => r.bits.extractLsb' 32 8).Nodup := by decide

/-! ## Trace syntax (30_encoding.md R109) -/

theorem test_trace_number_and_comment :
    parseLine ['I', 'N', 'I', 'T', ' ', '1', '1', '5', '2', '0', '0', ' ', ';', 'x'] = .word 0x010001C200 := by decide
theorem test_trace_hex : parseLine ['W', 'R', 'I', 'T', 'E', ' ', '0', 'x', '4', '1'] = .word 0x0200000041 := by decide
theorem test_trace_byte_too_wide : parseLine ['W', 'R', 'I', 'T', 'E', ' ', '2', '5', '6'] = .malformed := by decide

/-! ## Reset, step, schedule -/

theorem test_reset_runs_a_placed_word :
    (nextOr State.reset (step (State.reset.withFetchWord 40 0x0200000041))).app = .write .w1 0x41 := by decide
/-- EN-16: a reserved word sets `refused` and is gone. -/
theorem test_reserved_word_is_refused :
    (nextOr State.reset (step (State.reset.withFetchWord 40 0))) = { State.reset with refused := true } := by decide
theorem test_empty_schedule_stops : stopsWith .scheduleEnded (step State.reset) = true := by decide
theorem test_reset_draws_are_kept :
    let s := State.resetFrom Config.default ⟨[0x11, 0x00, 0x33], [0x44], 0x55, 0x66, 0x10007⟩
    s.rx.buf = [(0, 0x11), (2, 0x33)] ∧ s.tx.buf = [(0, 0x44)] ∧ s.div = 7 ∧ Consistent s := by decide

/-! ## Ring arithmetic (95_test_vectors.md section 2.1) -/

/-- RG-1, RG-2. -/
theorem test_next_wraps : next 4 0 = 1 ∧ next 4 2 = 3 ∧ next 4 3 = 0 ∧ next 8 6 = 7 ∧ next 8 7 = 0 := by decide
/-- RG-3. -/
theorem test_nextBits_wraps : nextBits 256 8 255 = 0 ∧ nextBits 4 8 3 = 0 := by decide
/-- RG-6 to RG-9. -/
theorem test_count_and_contents :
    Ring.count 4 ⟨[], 3, 0⟩ = 3 ∧ Ring.isFull 4 ⟨[], 1, 2⟩ = true ∧ Ring.count 4 ⟨[], 1, 3⟩ = 2 ∧
    Ring.contents 4 ⟨[(0, 0x61), (1, 0x62), (2, 0x63), (3, 0x64)], 1, 3⟩ = [0x64, 0x61] := by decide
/-- RG-10, RG-11. -/
theorem test_push_then_pop :
    Ring.push 4 ⟨[], 3, 3⟩ 0x41 = some ⟨[(3, 0x41)], 0, 3⟩ ∧
    Ring.pop 4 ⟨[(3, 0x41)], 0, 3⟩ = some (0x41, ⟨[(3, 0x41)], 0, 0⟩) := by decide
/-- Writing the byte an unlisted slot reads as takes the entry away. -/
theorem test_write_zero_unlists : memWrite 4 [(1, 0x41), (2, 0x42)] 1 0x00 = some [(2, 0x42)] ∧ memWrite 4 [] 4 0x41 = none := by
  decide

/-! ## Single steps -/

/-- D-1: the issue of INIT. -/
theorem test_init_issue : after (.init 115200) State.reset = { State.reset with app := .init .i1 115200 } := by decide
/-- D-1: stage I4 enables RXIE and answers `0x1001`. -/
theorem test_init_i4 :
    after .step { State.reset with app := .init .i4 115200 } =
      { State.reset with ctrl := ⟨false, false, true, false⟩, respLog := [0x1001] } := by decide
/-- TX-W8: an issue while the App is busy is refused, and nothing else changes. -/
theorem test_avail_while_busy :
    after .avail { ready with app := .write (.ws ⟨false, 3, 0, 0⟩) 0x45 } =
      { ready with app := .write (.ws ⟨false, 3, 0, 0⟩) 0x45, refused := true } := by decide
theorem test_write_issue : (after (.write 0x41) ready).app = .write .w1 0x41 := by decide
/-- TX-W2, stage W2: `e = 0`, so the buffered path, with `nh = 1`. -/
theorem test_write_w2_busy_hardware :
    (after .step { ready with thrf := true, app := .write (.w2 (.hw false)) 0x42 }).app =
      .write (.ws ⟨false, 0, 0, 1⟩) 0x42 := by decide
/-- TX-W4, stage WM: slot 3. -/
theorem test_write_wm_last_slot :
    (after .step { rings [] 0 0 [] 3 1 with app := .write (.wm ⟨false, 3, 1, 0⟩) 0x44 }).tx = ⟨[(3, 0x44)], 3, 1⟩ := by decide
/-- RX-A3, RX-A2. -/
theorem test_avail_full_and_empty :
    (after .step { rings [] 1 2 [] 0 0 with app := .avail .a1 }).respLog = [0x2001] ∧
    (after .step { rings [] 5 5 [] 0 0 with app := .avail .a1 }).respLog = [0x2000] := by decide
/-- RX-RD1. -/
theorem test_read_empty :
    after .step { rings [] 4 4 [] 0 0 with app := .read .rd1 } = { rings [] 4 4 [] 0 0 with respLog := [0x4000] } := by decide
/-- RX-RD3, stage RD3: the wrap. -/
theorem test_read_rd3_wraps :
    after .step { rings [(7, 0x31)] 1 7 [] 0 0 with app := .read (.rd3 1 7 0x31) } =
      { rings [(7, 0x31)] 1 0 [] 0 0 with respLog := [0x3031] } := by decide
/-- D-8. -/
theorem test_flush_f1 :
    (after .step { rings [] 4 0 [] 0 0 with app := .flush .f1 }).app = .flush (.f2 4) := by decide
/-- RX-F3, stage F2: the captured value, not the head. -/
theorem test_flush_f2_captured :
    after .step { rings [] 3 0 [] 0 0 with app := .flush (.f2 2) } =
      { rings [] 3 2 [] 0 0 with respLog := [0x1005] } := by decide
/-- D-6: a hold. -/
theorem test_step_idle : stopsWith .stepNotEnabled (exec .step ready) = true := by decide
/-- TX-W5: the spin changes nothing. -/
theorem test_step_spin :
    after .step { rings [] 0 0 [] 3 0 with app := .write (.ws ⟨false, 3, 0, 0⟩) 0x45 } =
      { rings [] 0 0 [] 3 0 with app := .write (.ws ⟨false, 3, 0, 0⟩) 0x45 } := by decide
/-- RX-H2: the wrap. -/
theorem test_rxh_wraps :
    after .rxh { rings [] 7 2 [] 0 0 with rdr := 0x5A, rxf := true } =
      { rings [(7, 0x5A)] 0 2 [] 0 0 with rdr := 0x5A } := by decide
/-- RX-H3: the drop. -/
theorem test_rxh_full_drops :
    after .rxh { rings [] 1 2 [] 0 0 with rdr := 0x5A, rxf := true } = { rings [] 1 2 [] 0 0 with rdr := 0x5A } := by decide
/-- TX-H2: the wrap and the self-disable. -/
theorem test_txh_drains :
    after .txh { rings [] 0 0 [(3, 0x43)] 0 3 with ctrl := ⟨true, true, true, true⟩ } =
      { rings [] 0 0 [(3, 0x43)] 0 0 with thr := 0x43, thrf := true } := by decide
/-- TX-H5: a firing on an empty ring. -/
theorem test_txh_empty_ring :
    after .txh { rings [] 0 0 [] 2 2 with ctrl := ⟨true, true, true, true⟩, thr := 0x42 } =
      { rings [] 0 0 [] 2 3 with ctrl := ⟨true, true, true, true⟩, thr := 0x00, thrf := true } := by decide
/-- RX-L3, RX-L4. -/
theorem test_lineRx_overrun :
    (after (.lineRx 0x42) { ready with rdr := 0x41, rxf := true }).rdr = 0x41 ∧
    (after (.lineRx 0x42) { ready with
      cfg := { Config.default with overrunPolicy := .overwrite }, rdr := 0x41, rxf := true }).rdr = 0x42 := by decide
/-- RX-L1: the receiver disabled. -/
theorem test_lineRx_disabled : after (.lineRx 0x41) State.reset = State.reset := by decide
/-- TX-L1. -/
theorem test_lineTx_drains :
    after .lineTx { ready with thr := 0x41, thrf := true } = { ready with thr := 0x41, lineOut := [0x41] } := by decide
/-- TX-L2. -/
theorem test_lineTx_disabled : stopsWith .lineTxNotEnabled (exec .lineTx { State.reset with thrf := true }) = true := by decide
/-- TX-W0b, TX-W0c. -/
theorem test_thrWrite_full :
    (thrWrite 0x42 { ready with thr := 0x41, thrf := true }).thr = 0x41 ∧
    (thrWrite 0x42 { ready with
      cfg := { Config.default with thrFullWrite := .overwrite }, thr := 0x41, thrf := true }).thr = 0x42 := by decide
/-- EV-2. -/
theorem test_arbitration_rx_first :
    let s := { ready with cfg := { Config.default with handlerArb := .rxFirst }, ctrl := ⟨true, true, true, true⟩, rxf := true }
    stopsWith .txhNotEnabled (exec .txh s) = true ∧ isNext (exec .rxh s) = true := by decide
/-- The inspection view of 10_state.md R45. -/
theorem test_inspection :
    inspectRead .ctrl ready = 7 ∧ inspectRead .status { ready with thrf := true } = 1 ∧
    (inspectWrite .ctrl 0xF8 ready).ctrl = ⟨false, false, false, true⟩ := by decide

/-! ## Witnesses: concrete states that meet the hypotheses of the statements -/

/-- A WRITE spinning on a full TX ring, LINE stalled. -/
def Sys2Proof.Tests.spinning : State :=
  { rings [] 0 0 [(0, 0x42)] 3 0 with
    ctrl := ⟨true, true, true, true⟩, thr := 0x41, thrf := true, app := .write (.ws ⟨false, 3, 0, 0⟩) 0x45 }

theorem witness_EveryWordIsOneRowOrReserved :
    opcodeTable.filter (fun q => q.selects 0x0200000041) = [⟨"WRITE", 0x0200000000, 0xFFFFFFFF00⟩] ∧
    opcodeTable.filter (fun q => q.selects 0x0200000100) = [] := by decide
theorem witness_ReservedWordOnlyMarksRefusal :
    (State.reset.withFetchWord 40 0x0600000000).schedule = 0x0600000000 :: [] ∧
    ∀ r ∈ opcodeTable, r.selects 0x0600000000 = false := by decide
theorem witness_StepRunsScheduledInstruction :
    (State.reset.withFetchWord 40 0x0300000000).schedule = 0x0300000000 :: [] ∧ decode 0x0300000000 = .row .avail ∧
    State.reset.schedule = [] := by decide
theorem witness_StepKeepsConfigAndTakesOneWord :
    isNext (step (State.reset.withFetchWord 40 0x0300000000)) = true := by decide
theorem witness_StepsHappenExactlyWhenEnabled :
    Consistent ready ∧ ready.app = .idle ∧ enabled .rxh ready = false ∧ enabled .txh ready = false ∧
    enabled .lineTx ready = false ∧ enabled (.lineRx 0x41) ready = true ∧
    Consistent spinning ∧ enabled .avail spinning = false ∧ Instr.cls .avail = .issue ∧ Instr.cls .step ≠ .issue := by decide
theorem witness_ResetLeavesEveryElementAsItsRuleSays :
    Config.default.bufInit = .unspecified ∧ { Config.default with bufInit := .zero : Config }.bufInit = .zero ∧
    7 < Config.default.rxCap ∧ 3 < Config.default.txCap := by decide
theorem witness_ResetMeetsTheInvariant : Config.default.wf = true := by decide
theorem witness_StepKeepsTheInvariant :
    Consistent (State.reset.withFetchWord 40 0xC100000041) ∧
    isNext (step (State.reset.withFetchWord 40 0xC100000041)) = true := by decide
theorem witness_HazardFreeStepKeepsNoStaleByte :
    let s := { rings [] 0 0 [(1, 0x42)] 2 1 with ctrl := ⟨true, true, true, true⟩ }
    Consistent s ∧ noStale s = true ∧ hazardFree .txh s = true ∧ isNext (exec .txh s) = true := by decide
theorem witness_BookkeepingOnlyGrows : isNext (exec .lineTx { ready with thrf := true, refused := true }) = true := by decide
theorem witness_ElementsChangeOnlyUnderTheirWriters : isNext (exec .rxh { ready with rxf := true }) = true := by decide
theorem witness_SlotsChangeOnlyWhereStored :
    isNext (exec .step { rings [] 0 0 [] 3 1 with app := .write (.wm ⟨false, 3, 1, 0⟩) 0x44 }) = true := by decide
theorem witness_ControlBitsAreSetAndClearedAsListed :
    isNext (exec .step { ready with app := .write (.we ⟨false, 0, 0, 1⟩) 0x44 }) = true ∧
    isNext (exec .txh { rings [] 0 0 [] 0 3 with ctrl := ⟨true, true, true, true⟩ }) = true := by decide
theorem witness_UnreadRegistersNeverMatter :
    hideUnread ready = hideUnread { ready with div := 7, thr := 0x41, rdr := 0x42 } := by decide
theorem witness_IssueStartsTheOperationOrIsRefused : ready.app = .idle ∧ spinning.app ≠ .idle := by decide
theorem witness_InitStagesWriteTheirElements :
    { State.reset with app := .init .i1 0 : State }.app = .init .i1 0 ∧
    { State.reset with app := .init .i2 0 : State }.app = .init .i2 0 ∧
    { State.reset with app := .init .i3 0 : State }.app = .init .i3 0 ∧
    { State.reset with app := .init .i4 0 : State }.app = .init .i4 0 := by decide
theorem witness_CallInitConfiguresAndEnables : State.reset.app = .idle := by decide
theorem witness_NothingCrossesTheLineBeforeInit :
    let s := { State.reset with thr := 0x41, thrf := true }
    s.ctrl.txen = false ∧ s.ctrl.rxen = false ∧ s.app.op ≠ some .init ∧ s.cfg.thrFullWrite = .drop ∧
    isNext (execAll [.write 0x42, .step, .lineRx 0x43] s) = true := by decide
theorem witness_WriteTestsTheDirectPathInTwoStages :
    Config.default.directCheckOrder = .hwFirst ∧
    { Config.default with directCheckOrder := .ringFirst : Config }.directCheckOrder = .ringFirst := by decide
theorem witness_BufferedStagesStorePublishAndArm :
    let l : WriteLocals := ⟨false, 3, 1, 0⟩
    let s := { rings [] 0 0 [] 3 1 with app := .write (.wm l) 0x44 }
    l.nh ≠ s.tx.tail ∧ l.h < s.cfg.txCap ∧ s.tx.buf.wf s.cfg.txCap = true ∧ spinning.tx.tail = 0 := by decide
theorem witness_DirectStageWritesTheThr :
    { ready with app := .write (.wd true 2 2) 0x41, thrf := true : State }.app = .write (.wd true 2 2) 0x41 ∧
    ready.cfg.thrFullWrite = .drop := by decide
theorem witness_DirectPathSurvivesInterleaving :
    let s := { ready with app := .write .w1 0x41 }
    s.thrf = false ∧ s.tx.head = s.tx.tail ∧
    isNext (execAll (.step :: ([.lineRx 0x42] ++ .step :: ([.rxh] ++ [.step]))) s) = true := by decide
theorem witness_BufferedWriteJoinsTheContents :
    let s := { rings [] 0 0 [] 3 1 with thrf := true }
    Consistent s ∧ s.app = .idle ∧ s.tx.isFull s.cfg.txCap = false := by decide
theorem witness_SpinEndsOnlyByATxhFiring :
    (0 : Nat) = spinning.tx.tail ∧ isNext (execAll [.step, .lineTx, .step] spinning) = true := by decide
theorem witness_OneDrainEndsTheSpin :
    Consistent { spinning with thrf := false } ∧ enabled .txh { spinning with thrf := false } = true := by decide
theorem witness_CallWriteEndsExactlyWhereThereIsRoom :
    let s := { rings [] 0 0 [] 3 0 with thrf := true }
    let r := { rings [] 0 0 [] 3 1 with thrf := true }
    Consistent s ∧ s.tx.isFull s.cfg.txCap = true ∧ Consistent r ∧ r.tx.isFull r.cfg.txCap = false := by decide
theorem witness_TxhSendsTheByteAtTheTail :
    let s := { rings [] 0 0 [(3, 0x43)] 0 3 with ctrl := ⟨true, true, true, true⟩ }
    s.ctrl.txie = true ∧ s.thrf = false ∧ s.tx.tail < s.cfg.txCap ∧ s.cfg.handlerArb ≠ .rxFirst ∧ ready.ctrl.txie = false := by
  decide
theorem witness_LineTxTakesTheThrByte :
    ready.ctrl.txen = true ∧ spinning.thrf = true ∧ ready.thrf = false ∧ State.reset.ctrl.txen = false := by decide
theorem witness_TxhOnAnEmptyRingLeavesItFull :
    let s := { rings [] 0 0 [] 3 3 with ctrl := ⟨true, true, true, true⟩ }
    Consistent s ∧ s.tx.isEmpty = true ∧ enabled .txh s = true := by decide
theorem witness_RearmedDrainSendsEverySlotOnce :
    let s := { rings [] 0 0 [(0, 0x58), (1, 0x42)] 2 2 with ctrl := ⟨true, true, true, true⟩ }
    Consistent s ∧ s.tx.head = s.tx.tail ∧ s.thrf = false ∧ s.cfg.handlerArb ≠ .rxFirst := by decide
theorem witness_DirectTestRacesADrain :
    let s := { rings [] 0 0 [(0, 0x41)] 1 0 with ctrl := ⟨true, true, true, true⟩, app := .write .w1 0x42 }
    let r := { s with cfg := { Config.default with directCheckOrder := .ringFirst } }
    Consistent s ∧ enabled .txh s = true ∧ next s.cfg.txCap s.tx.tail = s.tx.head ∧ s.cfg.directCheckOrder = .hwFirst ∧
    Consistent r ∧ enabled .txh r = true ∧ r.cfg.directCheckOrder = .ringFirst := by decide
theorem witness_LineCarriesTheWritesInOrder :
    let s := { ready with app := .write .w1 0x41 }
    let is : List Instr := [.step, .step, .step, .lineTx]
    Consistent s ∧ noStale s = true ∧ safeRun is s = true ∧ isNext (execAll is s) = true := by decide
theorem witness_RxhStoresOrDropsTheByte :
    let s := { rings [] 7 2 [] 0 0 with rdr := 0x5A, rxf := true }
    s.ctrl.rxie = true ∧ s.cfg.handlerArb ≠ .txFirst ∧ next s.cfg.rxCap s.rx.head ≠ s.rx.tail ∧
    s.rx.head < s.cfg.rxCap ∧ s.rx.buf.wf s.cfg.rxCap = true ∧ next 8 1 = 2 ∧ ready.rxf = false := by decide
theorem witness_AvailAnswersWhetherBytesAreHeld :
    ready.app = .idle ∧ { rings [] 3 1 [] 0 0 with app := .avail .a1 : State }.app = .avail .a1 := by decide
theorem witness_ReadReturnsTheByteAtTheTail :
    let s := { rings [(7, 0x31)] 6 7 [] 0 0 with app := .read (.rd3 6 7 0x31), rxf := true }
    let r := { rings [(7, 0x31)] 1 7 [] 0 0 with app := .read (.rd2 1 7), rxf := true }
    ready.cfg.readPolarity = .contract ∧ ready.app = .idle ∧ 7 < ready.cfg.rxCap ∧ (rings [] 1 7 [] 0 0).rx.head ≠ 7 ∧
    Consistent s ∧ isNext (exec .rxh s) = true ∧ Consistent r ∧ isNext (exec .rxh r) = true := by decide
theorem witness_InvertedReadReturnsAStaleByte :
    { Config.default with readPolarity := .inverted : Config }.readPolarity = .inverted ∧ 7 < Config.default.rxCap ∧
    2 ≤ Config.default.rxCap := by decide
theorem witness_FlushWritesTheCapturedHeadToTheTail :
    let s := { rings [] 1 2 [] 0 0 with app := .flush .f1, rxf := true }
    let r := { rings [] 1 3 [] 0 0 with app := .flush .f1, rxf := true }
    Consistent s ∧ s.rx.isFull s.cfg.rxCap = true ∧ isNext (execAll [.step, .rxh, .step] s) = true ∧
    Consistent r ∧ r.rx.isFull r.cfg.rxCap = false ∧ isNext (execAll [.step, .rxh, .step] r) = true := by decide
theorem witness_FlushKeepsTheBytesStoredAfterItsCapture :
    let s := { rings [(0, 0x61)] 1 0 [] 0 0 with app := .flush .f1 }
    Consistent s ∧ isNext (execAll (.step :: ([.lineRx 0x63, .rxh] ++ [.step])) s) = true := by decide
theorem witness_OverflowKeepsTheFirstBytes :
    Consistent ready ∧ ready.ctrl.rxen = true ∧ ready.ctrl.rxie = true ∧ ready.rxf = false ∧
    ready.cfg.handlerArb ≠ .txFirst := by decide
theorem witness_ReadsReturnTheStoredBytesInOrder :
    let s := { rings [(7, 0x31)] 0 7 [] 0 0 with app := .read .rd1 }
    Consistent s ∧ s.cfg.readPolarity = .contract ∧ s.app.op ≠ some .flush ∧
    isNext (execAll [.step, .lineRx 0x32, .step, .rxh, .step] s) = true := by decide
theorem witness_SuccessorWrapsAndFitsItsRegister : 1 ≤ 8 ∧ 256 ≤ 2 ^ 8 ∧ (255 : BitVec 8).toNat < 256 := by decide
theorem witness_CountTellsEmptyFromFull :
    let r : Ring := ⟨[], 1, 2⟩
    r.head < 4 ∧ r.tail < 4 ∧ r.isFull 4 = true := by decide
theorem witness_FullRingLeavesOneSlotUnused :
    let r : Ring := ⟨[], 3, 0⟩
    r.head < 4 ∧ r.tail < 4 ∧ r.isFull 4 = true ∧ Ring.isFull 4 ⟨[], 1, 2⟩ = true := by decide
theorem witness_PushAppendsAndPopTakesTheOldest :
    Ring.wf 4 ⟨[], 3, 3⟩ = true ∧ Ring.isFull 4 ⟨[], 3, 3⟩ = false ∧ Ring.wf 4 ⟨[], 1, 2⟩ = true ∧
    Ring.isFull 4 ⟨[], 1, 2⟩ = true ∧ Ring.isEmpty ⟨[], 1, 2⟩ = false ∧ Ring.isEmpty ⟨[], 3, 3⟩ = true := by decide
theorem witness_ArbitrationOfTwoPendingHandlers :
    let s := { ready with ctrl := ⟨true, true, true, true⟩, rxf := true }
    Consistent s ∧ s.cfg.handlerArb = .any ∧ s.thrf = false ∧
    Consistent { s with cfg := { Config.default with handlerArb := .rxFirst } } ∧
    Consistent { s with cfg := { Config.default with handlerArb := .txFirst } } := by decide
theorem witness_FiringsLeaveTheAppAlone :
    Instr.cls .rxh = .handlerFiring ∧ Instr.cls .txh = .handlerFiring ∧
    isNext (exec .rxh { ready with rxf := true }) = true := by decide
theorem witness_HandlerStatesMoveAsTheirTablesSay :
    isNext (exec .rxh { ready with rxf := true }) = true ∧
    isNext (exec .txh { ready with ctrl := ⟨true, true, true, true⟩ }) = true ∧
    isNext (exec .lineTx spinning) = true ∧ txhState spinning = .txWait ∧ rxhState ready = .rxIdle ∧
    rxhState (after (.lineRx 0x41) ready) = .rxPending ∧
    (let s := { ready with ctrl := ⟨true, true, false, false⟩, rxf := true, app := .init .i4 0 }
     isNext (exec .step s) = true ∧ rxhState s = .rxIdle ∧ rxhState (after .step s) = .rxPending) ∧
    (let s := { rings [] 0 0 [(3, 0x44)] 0 3 with app := .write (.we ⟨false, 3, 3, 0⟩) 0x44 }
     isNext (exec .step s) = true ∧ txhState s = .txOff ∧ txhState (after .step s) = .txReady ∧
     txhState (after .step { s with thrf := true }) = .txWait) := by decide
theorem witness_InspectionShowsTheRegisters :
    ready.thrf = false ∧ spinning.thrf = true ∧ spinning.cfg.thrFullWrite = .drop ∧
    { Config.default with thrFullWrite := .overwrite : Config }.thrFullWrite = .overwrite := by decide

/-- Every step of an infinite run in which only the spinning WRITE steps. -/
theorem witness_StalledLineHangsTheWrite :
    IsRun (fun _ => 0x4000000000) (fun _ => spinning) ∧ decode 0x4000000000 ≠ .row .lineTx ∧
    spinning.app = .write (.ws ⟨false, 3, 0, 0⟩) 0x45 ∧ (0 : Nat) = spinning.tx.tail ∧ spinning.thrf = true := by
  have h : decode 0x4000000000 = .row .step := by decide
  refine ⟨fun _ => ?_, by decide⟩
  show execWord 0x4000000000 spinning = .next spinning
  simp only [execWord, h]
  rfl

/-- A byte in `RDR`, handled by RXH first, under `TX_FIRST`; from then on LINE delivers into a disabled receiver. -/
def Sys2Proof.Tests.fairStates : Nat → State
  | 0 => { ready with
      cfg := { Config.default with handlerArb := .txFirst }, ctrl := ⟨false, false, true, false⟩, rdr := 0x41, rxf := true }
  | _ + 1 => { rings [(0, 0x41)] 1 0 [] 0 0 with
      cfg := { Config.default with handlerArb := .txFirst }, ctrl := ⟨false, false, true, false⟩, rdr := 0x41 }

/-- The words of that run. -/
def Sys2Proof.Tests.fairWords : Nat → OpWord
  | 0 => 0x8100000000
  | _ + 1 => 0xC100000042

theorem witness_FairRunsHandleEveryReceivedByte :
    IsRun fairWords fairStates ∧ WeaklyFair fairWords fairStates ∧ (fairStates 0).cfg.handlerArb = .txFirst ∧
    (fairStates 0).ctrl.rxie = true ∧ (fairStates 0).rxf = true := by
  have hidle : ∀ i, i = Instr.step ∨ i = .rxh ∨ i = .txh → FairFor i fairWords fairStates := by
    intro i hi n he
    have hn := he (n + 1) (Nat.le_succ n)
    rcases hi with rfl | rfl | rfl <;> exact absurd hn (by change ¬ (guardHolds _ (fairStates 1) = true); decide)
  refine ⟨?_, ⟨hidle _ (.inl rfl), hidle _ (.inr (.inl rfl)), hidle _ (.inr (.inr rfl))⟩, by decide, by decide, by decide⟩
  intro n
  cases n with
  | zero =>
    have h : decode 0x8100000000 = .row .rxh := by decide
    change execWord 0x8100000000 (fairStates 0) = .next (fairStates 1)
    simp only [execWord, h]
    rfl
  | succ n =>
    have h : decode 0xC100000042 = .row (.lineRx 0x42) := by decide
    change execWord 0xC100000042 (fairStates 1) = .next (fairStates 1)
    simp only [execWord, h]
    rfl
end

section
/-! PROOFS. The decoder and the opcode table agree on every word (30_encoding.md R100 to R105). `OP` alone tells the
table's rows apart, so a word can select only the row its `OP` names; whether it does is the argument check of R101. -/

namespace Sys2Proof

/-! ## The two fields of a word -/

@[simp] theorem opField_append (op : BitVec 8) (arg : BitVec 32) : opField (op ++ arg) = op :=
  BitVec.extractLsb'_append_eq_left

@[simp] theorem argField_append (op : BitVec 8) (arg : BitVec 32) : argField (op ++ arg) = arg :=
  BitVec.extractLsb'_append_eq_right

@[simp] theorem opField_append_argField (w : OpWord) : opField w ++ argField w = w :=
  BitVec.extractLsb'_append_extractLsb' (w := 8) (len := 32)

theorem op_append_arg_inj_iff (op op' : BitVec 8) (arg arg' : BitVec 32) :
    op ++ arg = op' ++ arg' ↔ op = op' ∧ arg = arg' := by
  constructor
  · intro h
    exact ⟨by simpa using congrArg opField h, by simpa using congrArg argField h⟩
  · rintro ⟨rfl, rfl⟩
    rfl

/-! ## The argument check -/

/-- The `ARG` bits R101 requires to be 0: the low half of the `mask` column of R102. -/
def argMask : Instr → BitVec 32
  | .init _ => 0
  | .write _ => 0xFFFFFF00
  | .lineRx _ => 0xFFFFFF00
  | .avail | .read | .flush | .step | .rxh | .txh | .lineTx => BitVec.allOnes 32

theorem extractLsb'_append_argByte (arg : BitVec 32) : arg.extractLsb' 8 24 ++ argByte arg = arg :=
  BitVec.extractLsb'_append_extractLsb' (w := 24) (len := 8)

theorem and_byteMask (arg : BitVec 32) : arg &&& 0xFFFFFF00 = arg.extractLsb' 8 24 ++ 0#8 :=
  calc arg &&& 0xFFFFFF00
    _ = (arg.extractLsb' 8 24 ++ argByte arg) &&& (BitVec.allOnes 24 ++ 0#8) := by
      rw [extractLsb'_append_argByte]; rfl
    _ = arg.extractLsb' 8 24 ++ 0#8 := by rw [BitVec.and_append, BitVec.and_allOnes, BitVec.and_zero]

theorem and_byteMask_eq_zero_iff (arg : BitVec 32) : arg &&& 0xFFFFFF00 = 0 ↔ arg.extractLsb' 8 24 = 0 := by
  rw [and_byteMask]
  exact BitVec.append_left_inj (s₂ := 0#24) 0#8

theorem zeroExtend_argByte {arg : BitVec 32} (h : arg.extractLsb' 8 24 = 0#24) : (argByte arg).zeroExtend 32 = arg :=
  calc (argByte arg).zeroExtend 32
    _ = 0#24 ++ argByte arg := BitVec.setWidth_eq_append (by decide)
    _ = arg.extractLsb' 8 24 ++ argByte arg := by rw [h]
    _ = arg := extractLsb'_append_argByte arg

theorem argWellFormed_opOf_iff (i : Instr) (arg : BitVec 32) :
    argWellFormed (opOf i) arg = true ↔ arg &&& argMask i = 0 := by
  cases i with
  | init => simp [argWellFormed, opOf, argMask]
  | write | lineRx => rw [argMask, and_byteMask_eq_zero_iff]; exact beq_iff_eq
  | _ => rw [argMask, BitVec.and_allOnes]; exact beq_iff_eq

/-! ## What the decoder reads -/

theorem decode_eq_row_iff (w : OpWord) (i : Instr) :
    decode w = .row i ↔ rowOf (opField w) (argField w) = some i ∧ argWellFormed (opField w) (argField w) = true := by
  unfold decode
  split
  next h => simp [h]
  next j h => split <;> simp_all

theorem opOf_of_rowOf {op : BitVec 8} {arg : BitVec 32} {i : Instr} (h : rowOf op arg = some i) : opOf i = op := by
  unfold rowOf at h
  split at h <;> cases h <;> exact (BitVec.eq_of_toNat_eq ‹_›).symm

theorem exists_rowOf_opOf (i : Instr) (arg : BitVec 32) : ∃ j, rowOf (opOf i) arg = some j := by
  cases i <;> exact ⟨_, rfl⟩

/-- Where the argument check holds, the instruction keeps every bit of the argument (30_encoding.md R101). -/
theorem argOf_of_rowOf {i : Instr} {arg : BitVec 32} (h : rowOf (opOf i) arg = some i)
    (hwf : argWellFormed (opOf i) arg = true) : argOf i = arg := by
  cases i with
  | init => cases h; rfl
  | write | lineRx => cases h; exact zeroExtend_argByte (eq_of_beq hwf)
  | _ => exact (eq_of_beq hwf).symm

theorem opOf_of_decode {w : OpWord} {i : Instr} (h : decode w = .row i) : opOf i = opField w :=
  opOf_of_rowOf ((decode_eq_row_iff w i).mp h).1

theorem encode_of_decode {w : OpWord} {i : Instr} (h : decode w = .row i) : encode i = w := by
  obtain ⟨hrow, hwf⟩ := (decode_eq_row_iff w i).mp h
  have hop := opOf_of_rowOf hrow
  rw [← hop] at hrow hwf
  rw [encode, argOf_of_rowOf hrow hwf, hop, opField_append_argField]

/-! ## The rows a word selects -/

/-- The row of an instruction: its mnemonic, its `OP` with a zero argument, and a mask of all of `OP` and `argMask`. -/
def tableRow (i : Instr) : OpcodeRow := ⟨mnemonicOf i, opOf i ++ 0#32, BitVec.allOnes 8 ++ argMask i⟩

/-- One instruction per row of the table, in the table's order. -/
def tableInstrs : List Instr :=
  [.init 0, .write 0, .avail, .read, .flush, .step, .rxh, .txh, .lineRx 0, .lineTx]

theorem opcodeTable_eq_map_tableRow : opcodeTable = tableInstrs.map tableRow := by decide

theorem exists_tableRow_of_mem {r : OpcodeRow} (h : r ∈ opcodeTable) : ∃ i, tableRow i = r := by
  rw [opcodeTable_eq_map_tableRow] at h
  obtain ⟨i, -, hi⟩ := List.mem_map.mp h
  exact ⟨i, hi⟩

theorem tableRow_selects_iff (i : Instr) (w : OpWord) :
    (tableRow i).selects w = true ↔ opField w = opOf i ∧ argWellFormed (opOf i) (argField w) = true := by
  have hand : w &&& (tableRow i).mask = opField w ++ (argField w &&& argMask i) := by
    conv_lhs => rw [← opField_append_argField w, tableRow, BitVec.and_append, BitVec.and_allOnes]
  rw [argWellFormed_opOf_iff, OpcodeRow.selects, beq_iff_eq, hand]
  exact op_append_arg_inj_iff ..

theorem exists_decode_of_selects {r : OpcodeRow} {w : OpWord} (hr : r ∈ opcodeTable) (h : r.selects w = true) :
    ∃ i, decode w = .row i := by
  obtain ⟨i, rfl⟩ := exists_tableRow_of_mem hr
  obtain ⟨hop, hwf⟩ := (tableRow_selects_iff i w).mp h
  obtain ⟨j, hj⟩ := exists_rowOf_opOf i (argField w)
  exact ⟨j, (decode_eq_row_iff w j).mpr (by rw [hop]; exact ⟨hj, hwf⟩)⟩

theorem tableRow_selects_of_decode {w : OpWord} {i : Instr} (h : decode w = .row i) :
    (tableRow i).selects w = true := by
  have hop := opOf_of_decode h
  exact (tableRow_selects_iff i w).mpr ⟨hop.symm, hop ▸ ((decode_eq_row_iff w i).mp h).2⟩

theorem filter_opField_eq_tableRow (i : Instr) :
    opcodeTable.filter (fun q => opField q.bits == opOf i) = [tableRow i] := by
  have hop : (fun q => opField q.bits == opOf i) ∘ tableRow = fun j => opOf j == opOf i := by
    funext j
    simp [tableRow]
  rw [opcodeTable_eq_map_tableRow, List.filter_map, hop]
  cases i <;> rfl

theorem opField_bits_of_selects {r : OpcodeRow} {w : OpWord} (hr : r ∈ opcodeTable) (h : r.selects w = true) :
    opField r.bits = opField w := by
  obtain ⟨i, rfl⟩ := exists_tableRow_of_mem hr
  rw [((tableRow_selects_iff i w).mp h).1, tableRow, opField_append]

theorem filter_selects_of_decode {w : OpWord} {i : Instr} (h : decode w = .row i) :
    opcodeTable.filter (fun q => q.selects w) = [tableRow i] :=
  calc opcodeTable.filter (fun q => q.selects w)
    _ = opcodeTable.filter (fun q => q.selects w && opField q.bits == opOf i) := by
      refine List.filter_congr fun r hr => ?_
      cases hs : r.selects w with
      | false => rfl
      | true => simp [opField_bits_of_selects hr hs, opOf_of_decode h]
    _ = (opcodeTable.filter (fun q => opField q.bits == opOf i)).filter (fun q => q.selects w) :=
      List.filter_filter.symm
    _ = [tableRow i] := by
      rw [filter_opField_eq_tableRow, List.filter_singleton, tableRow_selects_of_decode h, cond_true]

/-- Settles O3, by the decoder's answer: a word that decodes selects the row of its instruction, the only row with its
`OP`, and a word that selected a row would decode. -/
theorem everyWordIsOneRowOrReserved : Obligations.EveryWordIsOneRowOrReserved := by
  intro w
  cases hd : decode w with
  | row i => exact .inl ⟨i, tableRow i, rfl, encode_of_decode hd, filter_selects_of_decode hd, rfl⟩
  | reserved why =>
    refine .inr ⟨why, rfl, List.filter_eq_nil_iff.mpr fun r hr hs => ?_⟩
    obtain ⟨i, hi⟩ := exists_decode_of_selects hr hs
    exact nomatch hd.symm.trans hi

end Sys2Proof
end

section
/-! PROOFS. The ring's index arithmetic and its contents (40_ring.md R131 to R138). `Count` is the one number of steps
below `C` that lead from the tail to the head (`subMod_eq_iff`): what it says of Empty and Full, which slots hold queued
bytes, and what a push or a pop does to the contents all follow from that. -/

namespace Sys2Proof.Machine

/-! ## The successor -/

theorem next_eq_self_iff {cap i : Nat} (h : i < cap) : next cap i = i ↔ cap = 1 := by
  rw [next_cases h]
  split <;> omega

/-- A slot one further on is the successor of the slot before it, wrapped or not. -/
theorem add_succ_mod (cap t k : Nat) : (t + (k + 1)) % cap = next cap ((t + k) % cap) := by
  rw [next, Nat.mod_add_mod, Nat.add_assoc]

theorem next_add_mod (cap t k : Nat) : (next cap t + k) % cap = (t + (k + 1)) % cap := by
  rw [next, Nat.mod_add_mod, Nat.add_assoc, Nat.add_comm 1 k]

/-- An increment in `w` bits is the successor of capacity `2^w`. -/
theorem toNat_add_one {w : Nat} (i : BitVec w) : (i + 1).toNat = next (2 ^ w) i.toNat := by
  simp [next]

theorem toNat_nextBits {w cap : Nat} {i : BitVec w} (hcap : cap ≤ 2 ^ w) (hi : i.toNat < cap) :
    (nextBits cap w i).toNat = next cap i.toNat := by
  have hinc := (toNat_add_one i).trans (next_cases (Nat.lt_of_lt_of_le hi hcap))
  rw [nextBits, next_cases hi]
  split
  next hwrap =>
    have hlast : i.toNat + 1 = cap := by split at hinc <;> omega
    simp [hlast]
  next hstay => split at hinc <;> split <;> omega

/-! ## The difference of two indices -/

theorem subMod_lt {cap : Nat} (h : 0 < cap) (a b : Nat) : subMod cap a b < cap := Nat.mod_lt _ h

/-- `(a - b) mod C` is the one number of steps below `C` that lead from `b` to `a`. -/
theorem subMod_eq_iff {cap a b k : Nat} (ha : a < cap) (hb : b < cap) (hk : k < cap) :
    subMod cap a b = k ↔ (b + k) % cap = a := by
  rw [subMod_cases ha hb, wrap_cases (by omega)]
  split <;> split <;> omega

theorem add_subMod {cap a b : Nat} (ha : a < cap) (hb : b < cap) : (b + subMod cap a b) % cap = a :=
  (subMod_eq_iff ha hb (subMod_lt (by omega) a b)).mp rfl

theorem subMod_left_inj {cap a a' b : Nat} (ha : a < cap) (ha' : a' < cap) (hb : b < cap) :
    subMod cap a b = subMod cap a' b ↔ a = a' := by
  rw [subMod_eq_iff ha hb (subMod_lt (by omega) a' b), add_subMod ha' hb, eq_comm]

theorem subMod_eq_zero_iff {cap a b : Nat} (ha : a < cap) (hb : b < cap) : subMod cap a b = 0 ↔ a = b := by
  rw [subMod_eq_iff ha hb (by omega), Nat.add_zero, Nat.mod_eq_of_lt hb, eq_comm]

theorem subMod_eq_last_iff {cap a b : Nat} (ha : a < cap) (hb : b < cap) :
    subMod cap a b = cap - 1 ↔ next cap a = b := by
  rw [subMod_cases ha hb, next_cases ha]
  split <;> split <;> omega

theorem subMod_next_one {cap a : Nat} (ha : a < cap) : subMod cap (next cap a) 1 = a := by
  by_cases hone : 1 < cap
  · rw [subMod_eq_iff (next_lt (by omega) a) hone ha, Nat.add_comm, next]
  · have hlt := subMod_lt (by omega : 0 < cap) (next cap a) 1
    omega

theorem subMod_next_left {cap a b : Nat} (ha : a < cap) (hb : b < cap) (hne : next cap a ≠ b) :
    subMod cap (next cap a) b = subMod cap a b + 1 := by
  have hlt := subMod_lt (by omega : 0 < cap) a b
  have hlast := mt (subMod_eq_last_iff ha hb).mp hne
  rw [subMod_eq_iff (next_lt (by omega) a) hb (by omega), add_succ_mod, add_subMod ha hb]

theorem subMod_next_right {cap a b : Nat} (ha : a < cap) (hb : b < cap) (hne : a ≠ b) :
    subMod cap a b = subMod cap a (next cap b) + 1 := by
  have hlt := subMod_lt (by omega : 0 < cap) a b
  obtain ⟨k, hk⟩ := Nat.exists_eq_succ_of_ne_zero (mt (subMod_eq_zero_iff ha hb).mp hne)
  have hsteps : (b + (k + 1)) % cap = a := (subMod_eq_iff ha hb (by omega)).mp hk
  have hright : subMod cap a (next cap b) = k := by
    rw [subMod_eq_iff ha (next_lt (by omega) b) (by omega), next_add_mod, hsteps]
  rw [hright, hk]

/-! ## The ring's predicates -/

theorem Ring.isEmpty_iff (r : Ring) : r.isEmpty = true ↔ r.head = r.tail := beq_iff_eq

theorem Ring.isFull_iff (cap : Nat) (r : Ring) : r.isFull cap = true ↔ next cap r.head = r.tail := beq_iff_eq

theorem Ring.wf_iff (cap : Nat) (r : Ring) :
    r.wf cap = true ↔ r.head < cap ∧ r.tail < cap ∧ r.buf.wf cap = true := by
  simp [Ring.wf, and_assoc]

theorem Ring.count_lt {cap : Nat} (h : 0 < cap) (r : Ring) : r.count cap < cap := subMod_lt h ..

/-- A slot lies in the window of the contents exactly if it is fewer than `Count` steps from the tail. -/
theorem Ring.mem_window_iff {cap : Nat} {r : Ring} (ht : r.tail < cap) {i : Nat} (hi : i < cap) :
    (∃ k, k < r.count cap ∧ (r.tail + k) % cap = i) ↔ subMod cap i r.tail < r.count cap := by
  constructor
  · rintro ⟨k, hk, hslot⟩
    rwa [(subMod_eq_iff hi ht (hk.trans (r.count_lt (Nat.zero_lt_of_lt hi)))).mpr hslot]
  · intro hlt
    exact ⟨_, hlt, add_subMod hi ht⟩

/-! ## What a push and a pop answer -/

theorem Ring.push_of_full {cap : Nat} {r : Ring} (hfull : r.isFull cap = true) (v : Byte) : r.push cap v = none := by
  simp [Ring.push, hfull]

theorem Ring.push_of_not_full {cap : Nat} {r : Ring} (hh : r.head < cap) (hfull : r.isFull cap = false) (v : Byte) :
    r.push cap v = some ⟨r.buf.set r.head v, next cap r.head, r.tail⟩ := by
  simp [Ring.push, memWrite, hfull, hh]

theorem Ring.pop_of_empty {r : Ring} (hempty : r.isEmpty = true) (cap : Nat) : r.pop cap = none := by
  simp [Ring.pop, hempty]

theorem Ring.pop_of_not_empty {cap : Nat} {r : Ring} (ht : r.tail < cap) (hempty : r.isEmpty = false) :
    r.pop cap = some (r.buf.get r.tail, ⟨r.buf, r.head, next cap r.tail⟩) := by
  simp [Ring.pop, memRead, hempty, ht]

/-! ## Count and contents of a ring whose indices name slots -/

section
variable {cap : Nat} {r : Ring} (hh : r.head < cap) (ht : r.tail < cap)
include hh ht

theorem Ring.tail_add_count_mod : (r.tail + r.count cap) % cap = r.head := add_subMod hh ht

theorem Ring.isEmpty_iff_count : r.isEmpty = true ↔ r.count cap = 0 :=
  r.isEmpty_iff.trans (subMod_eq_zero_iff hh ht).symm

theorem Ring.isFull_iff_count : r.isFull cap = true ↔ r.count cap = cap - 1 :=
  (r.isFull_iff cap).trans (subMod_eq_last_iff hh ht).symm

theorem Ring.isEmpty_and_isFull_iff : r.isEmpty = true ∧ r.isFull cap = true ↔ cap = 1 := by
  rw [r.isEmpty_iff, r.isFull_iff]
  constructor
  · rintro ⟨hempty, hfull⟩
    exact (next_eq_self_iff hh).mp (hfull.trans hempty.symm)
  · intro hone
    have heq : r.head = r.tail := by omega
    exact ⟨heq, ((next_eq_self_iff hh).mpr hone).trans heq⟩

theorem Ring.head_not_mem_window {k : Nat} (hk : k < r.count cap) : (r.tail + k) % cap ≠ r.head := by
  intro hslot
  exact Nat.lt_irrefl _ ((Ring.mem_window_iff ht hh).mp ⟨k, hk, hslot⟩)

theorem Ring.count_push (m : Memory) (hfull : r.isFull cap = false) :
    Ring.count cap ⟨m, next cap r.head, r.tail⟩ = r.count cap + 1 :=
  subMod_next_left hh ht (by simpa [Ring.isFull] using hfull)

theorem Ring.count_pop (hempty : r.isEmpty = false) :
    r.count cap = Ring.count cap ⟨r.buf, r.head, next cap r.tail⟩ + 1 :=
  subMod_next_right hh ht (by simpa [Ring.isEmpty] using hempty)

/-- A push leaves the slots of the window alone and adds slot `head` at its end. -/
theorem Ring.contents_push {v : Byte} (hbuf : r.buf.wf cap = true) (hfull : r.isFull cap = false) :
    Ring.contents cap ⟨r.buf.set r.head v, next cap r.head, r.tail⟩ = r.contents cap ++ [v] := by
  have hold : ∀ k ∈ List.range (r.count cap),
      (r.buf.set r.head v).get ((r.tail + k) % cap) = r.buf.get ((r.tail + k) % cap) := fun k hk =>
    Memory.get_set_other r.buf v (r.head_not_mem_window hh ht (List.mem_range.mp hk))
  rw [Ring.contents, r.count_push hh ht _ hfull, List.range_succ, List.map_append, List.map_congr_left hold,
    List.map_singleton, r.tail_add_count_mod hh ht, Memory.get_set_same hbuf, Ring.contents]

/-- A pop takes the slot the window begins with. -/
theorem Ring.contents_pop (hempty : r.isEmpty = false) :
    r.contents cap = r.buf.get r.tail :: Ring.contents cap ⟨r.buf, r.head, next cap r.tail⟩ := by
  rw [Ring.contents, r.count_pop hh ht hempty, List.range_succ_eq_map, List.map_cons, List.map_map, Nat.add_zero,
    Nat.mod_eq_of_lt ht, Ring.contents]
  simp only [next_add_mod, Function.comp_def]

end

/-! ## The obligations -/

/-- Settles O45: the `w`-bit increment is the successor of capacity `2^w`, and differs from that of `cap` at `cap - 1`
only, where the test against `cap`, or the wrap if `cap = 2^w`, gives 0. -/
theorem successorWrapsAndFitsItsRegister : Obligations.SuccessorWrapsAndFitsItsRegister := by
  intro w cap i _ hcap hi
  refine ⟨?_, next_lt (Nat.zero_lt_of_lt hi) _, toNat_nextBits hcap hi⟩
  rw [next_cases hi]
  split <;> split <;> omega

/-- Settles O46, by `Count` as the number of steps from the tail to the head. -/
theorem countTellsEmptyFromFull : Obligations.CountTellsEmptyFromFull := by
  intro cap r hh ht
  have hboth := r.isEmpty_and_isFull_iff hh ht
  exact ⟨r.tail_add_count_mod hh ht, Nat.le_sub_one_of_lt (r.count_lt (Nat.zero_lt_of_lt hh)),
    r.isEmpty_iff_count hh ht, r.isFull_iff_count hh ht, fun htwo h => absurd (hboth.mp h) (by omega), hboth.mpr⟩

/-- Settles O47: on a full ring `Count` is `cap - 1`, and the one slot that many steps from the tail is `head`. -/
theorem fullRingLeavesOneSlotUnused : Obligations.FullRingLeavesOneSlotUnused := by
  intro cap r hh ht hfull
  have hcount := (r.isFull_iff_count hh ht).mp hfull
  refine ⟨(r.length_contents cap).trans hcount, ?_, fun i hi => ?_⟩
  · rw [← (r.isFull_iff cap).mp hfull, subMod_next_one hh]
  · have hlt : subMod cap i r.tail < cap := subMod_lt (Nat.zero_lt_of_lt hi) ..
    have hinj : subMod cap i r.tail = r.count cap ↔ i = r.head := subMod_left_inj hi hh ht
    rw [Ring.mem_window_iff ht hi, Ne, ← hinj]
    omega

/-- Settles O48, by one rule each for what a push and a pop do to the count and to the contents. -/
theorem pushAppendsAndPopTakesTheOldest : Obligations.PushAppendsAndPopTakesTheOldest := by
  intro cap r v hwf
  obtain ⟨hh, ht, hbuf⟩ := (r.wf_iff cap).mp hwf
  refine ⟨fun hfull => ?_, fun hfull => Ring.push_of_full hfull v, fun hempty => ?_,
    fun hempty => Ring.pop_of_empty hempty cap⟩
  · exact ⟨_, Ring.push_of_not_full hh hfull v, Memory.get_set_same hbuf _ _,
      fun _ ha => Memory.get_set_other r.buf v ha, rfl, rfl, Ring.contents_push hh ht hbuf hfull,
      Ring.count_push hh ht _ hfull⟩
  · exact ⟨_, _, Ring.pop_of_not_empty ht hempty, rfl, rfl, rfl, rfl, Ring.contents_pop hh ht hempty,
      Ring.count_pop hh ht hempty⟩

end Sys2Proof.Machine
end

section
/-! PROOFS. The receive path, transition by transition (41_receive.md R160, R165, R170, R175): one equation per issue and
per stage, and what a firing of RXH does to a ring that a READ or a FLUSH is at work on. -/

namespace Sys2Proof.Machine

/-! ## The words -/

theorem encode_lineRx (d : Byte) : encode (.lineRx d) = (0xC1000000 : BitVec 32) ++ d :=
  calc encode (.lineRx d)
    _ = 0xC1#8 ++ (0#24 ++ d) := congrArg (0xC1#8 ++ ·) (BitVec.setWidth_eq_append (by decide))
    _ = 0xC1000000#32 ++ d := (BitVec.append_assoc (x₁ := 0xC1#8) (x₂ := 0#24) (x₃ := d)).symm

theorem respWord_avail_isEmpty (r : Ring) :
    respWord (.avail (!r.isEmpty)) = if r.head = r.tail then 0x2000 else 0x2001 := by
  split
  next h => rw [r.isEmpty_iff.mpr h]; rfl
  next h => rw [Bool.eq_false_iff.mpr (mt r.isEmpty_iff.mp h)]; rfl

theorem respWord_data (v : Byte) : respWord (.data v) = 0x3000 ||| v.zeroExtend 16 :=
  calc respWord (.data v)
    _ = 0x30#8 ++ v := congrArg (· ++ v) (rfl : 3#4 ++ 0#4 = 0x30#8)
    _ = (0x30#8 ++ 0#8) ||| (0#8 ++ v) := by rw [BitVec.or_append, BitVec.or_zero, BitVec.zero_or]
    _ = 0x3000 ||| v.zeroExtend 16 := by rw [BitVec.zeroExtend, BitVec.setWidth_eq_append (by decide)]; rfl

/-! ## The issues -/

theorem issue_of_idle {s : State} (h : s.app = .idle) (first : App) : issue first s = .next (goTo first s) := by
  simp [issue_eq, h, App.isBusy]

theorem exec_avail_of_idle {s : State} (h : s.app = .idle) : exec .avail s = .next (goTo (.avail .a1) s) :=
  issue_of_idle h _

theorem exec_read_of_idle {s : State} (h : s.app = .idle) : exec .read s = .next (goTo (.read .rd1) s) :=
  issue_of_idle h _

theorem exec_flush_of_idle {s : State} (h : s.app = .idle) : exec .flush s = .next (goTo (.flush .f1) s) :=
  issue_of_idle h _

/-! ## The stages -/

section
variable {s : State}

theorem exec_step_a1 (h : s.app = .avail .a1) :
    exec .step s = .next (finish (respWord (.avail (!s.rx.isEmpty))) s) := by
  simp [exec, execStep, h, stageA1]

theorem exec_step_rd1 (h : s.app = .read .rd1) (hc : s.cfg.readPolarity = .contract) :
    exec .step s = .next (if s.rx.head = s.rx.tail then finish (respWord .noData) s
      else goTo (.read (.rd2 s.rx.head s.rx.tail)) s) := by
  simp only [exec, execStep, h, stageRd1, hc, s.rx.isEmpty_iff]
  split <;> rfl

theorem exec_step_rd2 {h t : Nat} (ha : s.app = .read (.rd2 h t)) (ht : t < s.cfg.rxCap) :
    exec .step s = .next (goTo (.read (.rd3 h t (s.rx.buf.get t))) s) := by
  simp [exec, execStep, ha, stageRd2, memRead, ht]

theorem exec_step_rd3 {h t : Nat} {v : Byte} (ha : s.app = .read (.rd3 h t v)) (hc : s.cfg.readPolarity = .contract) :
    exec .step s = .next (finish (respWord (.data v)) (setRxTail (next s.cfg.rxCap t) s)) := by
  simp [exec, execStep, ha, stageRd3, hc]

theorem exec_step_f1 (h : s.app = .flush .f1) : exec .step s = .next (goTo (.flush (.f2 s.rx.head)) s) := by
  simp [exec, execStep, h, stageF1]

theorem exec_step_f2 {h : Nat} (ha : s.app = .flush (.f2 h)) :
    exec .step s = .next (finish (respWord (.done .flush)) (setRxTail h s)) := by
  simp [exec, execStep, ha, stageF2]

end

/-! ## LINE_RX on a full RDR -/

theorem fillRdr_of_rxf {s : State} (h : s.rxf = true) (d : Byte) : fillRdr d s = { s with rdr := d } := by
  rw [fillRdr, ← h]

/-! ## RXH beside a READ -/

/-- A firing of RXH on a ring that holds bytes leaves the oldest of them in its slot, and the ring still holds bytes. -/
theorem execRxh_keeps_oldest {s u : State} (hrxh : execRxh s = .next u) (hne : s.rx.head ≠ s.rx.tail) :
    u.rx.buf.get s.rx.tail = s.rx.buf.get s.rx.tail ∧ u.rx.tail = s.rx.tail ∧ u.rx.head ≠ s.rx.tail := by
  obtain ⟨-, ⟨-, rfl⟩ | ⟨hroom, -, rfl⟩⟩ := execRxh_cases hrxh
  · exact ⟨rfl, rfl, hne⟩
  · exact ⟨Memory.get_set_other s.rx.buf s.rdr hne.symm, rfl, mt (s.rx.isFull_iff _).mpr (Bool.eq_false_iff.mp hroom)⟩

/-- Between the stages of a READ under `CONTRACT` the captured tail is the tail, and the ring holds bytes. -/
theorem tail_eq_and_head_ne_of_reading {s : State} {h t : Nat} {v : Byte} (hok : appOk s = true)
    (hc : s.cfg.readPolarity = .contract) (ha : s.app = .read (.rd2 h t) ∨ s.app = .read (.rd3 h t v)) :
    t = s.rx.tail ∧ s.rx.head ≠ s.rx.tail := by
  rw [Ne, ← s.rx.isEmpty_iff]
  rcases ha with ha | ha <;> simp_all [appOk]

/-! ## RXH beside a FLUSH -/

theorem Ring.contents_of_head_eq_tail {cap h : Nat} (m : Memory) (hh : h < cap) : Ring.contents cap ⟨m, h, h⟩ = [] := by
  rw [← List.length_eq_zero_iff, Ring.length_contents]
  exact (subMod_eq_zero_iff hh hh).mpr rfl

theorem rxCap_ne_one_of_wf {c : Config} (h : c.wf = true) : c.rxCap ≠ 1 := by
  simp only [Config.wf, Bool.and_eq_true, decide_eq_true_eq] at h
  omega

/-- The one byte pushed onto a ring that held nothing is all it holds. -/
theorem Ring.contents_push_of_head_eq_tail {cap h : Nat} {m : Memory} (hcap : cap ≠ 1) (hh : h < cap)
    (hm : m.wf cap = true) (v : Byte) : Ring.contents cap ⟨m.set h v, next cap h, h⟩ = [v] := by
  have hroom : Ring.isFull cap ⟨m, h, h⟩ = false := by simpa [Ring.isFull, next_eq_self_iff hh] using hcap
  have hpush := Ring.contents_push (r := ⟨m, h, h⟩) (v := v) hh hh hm hroom
  rwa [Ring.contents_of_head_eq_tail m hh] at hpush

theorem execRxh_app {s u : State} (h : execRxh s = .next u) : u.app = s.app := by
  obtain ⟨-, ⟨-, rfl⟩ | ⟨-, -, rfl⟩⟩ := execRxh_cases h <;> rfl

/-- A FLUSH with one firing of RXH between its stages: the tail takes the head captured before that firing. -/
theorem rx_of_flush_around_rxh {s t : State} (ha : s.app = .flush .f1)
    (hrun : execAll [.step, .rxh, .step] s = .next t) :
    t.rx = if s.rx.isFull s.cfg.rxCap then ⟨s.rx.buf, s.rx.head, s.rx.head⟩
      else ⟨s.rx.buf.set s.rx.head s.rdr, next s.cfg.rxCap s.rx.head, s.rx.head⟩ := by
  obtain ⟨s₁, hf1, hrest⟩ := execAll_cons_next.mp hrun
  obtain ⟨u, hrxh, hlast⟩ := execAll_cons_next.mp hrest
  obtain ⟨t', hf2, hend⟩ := execAll_cons_next.mp hlast
  cases hend
  cases (exec_step_f1 ha).symm.trans hf1
  cases (exec_step_f2 (execRxh_app hrxh)).symm.trans hf2
  obtain ⟨-, ⟨hfull, rfl⟩ | ⟨hroom, -, rfl⟩⟩ := execRxh_cases hrxh
  · exact (if_pos hfull).symm
  · exact (if_neg (Bool.eq_false_iff.mp hroom)).symm

/-! ## The obligations -/

/-- Settles O36, by the two outcomes of LINE_RX: the byte reaches `RDR`, or is lost. -/
theorem lineRxDeliversOrLosesTheByte : Obligations.LineRxDeliversOrLosesTheByte := by
  intro s d
  refine ⟨encode_lineRx d, ?_⟩
  change execLineRx d s = _
  obtain ⟨hen, htaken, hexec⟩ | ⟨hlost, hexec⟩ := execLineRx_cases d s
  · rw [hexec, if_neg (by simp [hen])]
    split
    next => rfl
    next hfull =>
      rw [if_pos (htaken.resolve_left hfull), fillRdr_of_rxf (by simpa using hfull)]
  · rw [hexec]
    rcases hlost with hoff | ⟨hfull, hdrop⟩
    · rw [if_pos hoff]
    · simp [hfull, hdrop]

/-- Settles O38, by the equations of the issue and of stage A1. -/
theorem availAnswersWhetherBytesAreHeld : Obligations.AvailAnswersWhetherBytesAreHeld := by
  intro s
  refine ⟨rfl, exec_avail_of_idle, fun ha => ?_⟩
  rw [exec_step_a1 ha, respWord_avail_isEmpty]
  rfl

/-- Settles O39, stage by stage; RXH writes slot `rx_head`, which is not the tail's while the ring holds bytes. -/
theorem readReturnsTheByteAtTheTail : Obligations.ReadReturnsTheByteAtTheTail := by
  intro s h t v hc
  refine ⟨rfl, exec_read_of_idle, fun ha hempty => ?_, fun ha hne => ?_, exec_step_rd2, fun ha => ?_,
    fun hcons ha u hrxh => ?_⟩
  · rw [exec_step_rd1 ha hc, if_pos hempty]
    rfl
  · rw [exec_step_rd1 ha hc, if_neg hne]
    rfl
  · rw [exec_step_rd3 ha hc, respWord_data]
    rfl
  · obtain ⟨-, -, -, -, hok⟩ := hcons
    obtain ⟨rfl, hne⟩ := tail_eq_and_head_ne_of_reading hok hc ha
    exact execRxh_keeps_oldest hrxh hne

/-- Settles O41, stage by stage; between the stages RXH pushes at the captured head, which F2 makes the tail. -/
theorem flushWritesTheCapturedHeadToTheTail : Obligations.FlushWritesTheCapturedHeadToTheTail := by
  intro s h
  refine ⟨rfl, exec_flush_of_idle, exec_step_f1, exec_step_f2, fun t hcons ha hrun => ?_⟩
  obtain ⟨hcfg, hrx, -, -, -⟩ := hcons
  obtain ⟨hh, -, hbuf⟩ := (s.rx.wf_iff _).mp hrx
  rw [rx_of_flush_around_rxh ha hrun]
  split
  next => exact Ring.contents_of_head_eq_tail _ hh
  next => exact Ring.contents_push_of_head_eq_tail (rxCap_ne_one_of_wf hcfg) hh hbuf _

end Sys2Proof.Machine
end

section
/-! PROOFS. WRITE's direct path (42_transmit.md R203): what stage WD leaves, by what `ThrWrite` does to the THR (R221). -/

namespace Sys2Proof.Machine

/-- `ThrWrite` in one equation: the byte enters the THR unless `DROP` meets `THRF = 1` (42_transmit.md R221). -/
theorem thrWrite_eq_ite (v : Byte) (s : State) :
    thrWrite v s = { s with
      thr := if s.thrf = true ∧ s.cfg.thrFullWrite = .drop then s.thr else v
      thrf := true } := by
  obtain ⟨hempty, heq⟩ | ⟨hfull, hover, heq⟩ | ⟨hfull, hdrop, heq⟩ := thrWrite_cases v s
  · simp [heq, hempty]
  · simp [heq, hover, ← hfull]
  · rw [heq, if_pos ⟨hfull, hdrop⟩, ← hfull]

theorem exec_step_wd {s : State} {e : Bool} {h t : Nat} {b : Byte} (ha : s.app = .write (.wd e h t) b) :
    exec .step s = .next (finish (respWord (.done .write)) (thrWrite b s)) := by
  simp [exec, execStep, ha, stageWd]

/-- Settles O23, by the equation of stage WD and that of `ThrWrite`. -/
theorem directStageWritesTheThr : Obligations.DirectStageWritesTheThr := by
  intro s b e h t ha
  rw [exec_step_wd ha, thrWrite_eq_ite]
  rfl

end Sys2Proof.Machine
end

section
/-! PROOFS. INIT (43_driver.md R246 to R250): one equation for the issue and one per stage, and the run that joins them. -/

namespace Sys2Proof.Machine

section
variable {s : State} {baud : Baud}

theorem exec_init_of_idle (h : s.app = .idle) : exec (.init baud) s = .next (goTo (.init .i1 baud) s) :=
  issue_of_idle h _

theorem exec_step_i1 (h : s.app = .init .i1 baud) : exec .step s =
    .next (goTo (.init .i2 baud) { s with div := (Config.divisorOf s.cfg.divW baud).toNat }) := by
  simp [exec, execStep, h, stageI1]

theorem exec_step_i2 (h : s.app = .init .i2 baud) : exec .step s = .next (goTo (.init .i3 baud) (setTxen s)) := by
  simp [exec, execStep, h, stageI2]

theorem exec_step_i3 (h : s.app = .init .i3 baud) : exec .step s = .next (goTo (.init .i4 baud) (setRxen s)) := by
  simp [exec, execStep, h, stageI3]

theorem exec_step_i4 (h : s.app = .init .i4 baud) :
    exec .step s = .next (finish (respWord (.done .init)) (setRxie s)) := by
  simp [exec, execStep, h, stageI4]

/-- The five words of an INIT compose: the stages' writes one after another, then the response. -/
theorem execAll_init_of_idle (h : s.app = .idle) : execAll [.init baud, .step, .step, .step, .step] s =
    .next (finish (respWord (.done .init))
      (setRxie (setRxen (setTxen { s with div := (Config.divisorOf s.cfg.divW baud).toNat })))) :=
  execAll_cons_next.mpr ⟨_, exec_init_of_idle h,
    execAll_cons_next.mpr ⟨_, exec_step_i1 (goTo_app _ _),
      execAll_cons_next.mpr ⟨_, exec_step_i2 (goTo_app _ _),
        execAll_cons_next.mpr ⟨_, exec_step_i3 (goTo_app _ _),
          execAll_cons_next.mpr ⟨_, exec_step_i4 (goTo_app _ _), rfl⟩⟩⟩⟩⟩

end

/-- Settles O19, by the equations of the four stages. -/
theorem initStagesWriteTheirElements : Obligations.InitStagesWriteTheirElements := fun _ _ =>
  ⟨exec_step_i1, exec_step_i2, exec_step_i3, exec_step_i4⟩

/-- Settles O20, by the run of the five words; the App it leaves idle was idle before. -/
theorem callInitConfiguresAndEnables : Obligations.CallInitConfiguresAndEnables := by
  intro s baud h
  refine ⟨rfl, ?_⟩
  rw [execAll_init_of_idle h, finish, ← h]
  rfl

end Sys2Proof.Machine
end

section
/-! PROOFS. A handler firing beside the App (60_exceptions.md R266, R268): it commutes with a change of `app`, as each of
its parts does, and its cases say which enable bits it leaves. -/

namespace Sys2Proof.Machine

/-! ## A firing does not read `app` -/

theorem thrWrite_goTo (v : Byte) (a : App) (s : State) : thrWrite v (goTo a s) = goTo a (thrWrite v s) := by
  simp only [thrWrite_eq_ite]
  rfl

theorem rxhBody_goTo (a : App) (s : State) : rxhBody (goTo a s) = mapNext (goTo a) (rxhBody s) := by
  simp only [rxhBody, goTo_cfg, goTo_rx, goTo_rdr, apply_ite (mapNext (goTo a))]
  cases memWrite s.cfg.rxCap s.rx.buf s.rx.head s.rdr <;> rfl

theorem txhBody_goTo (a : App) (s : State) : txhBody (goTo a s) = mapNext (goTo a) (txhBody s) := by
  simp only [txhBody, goTo_cfg, goTo_tx, thrWrite_goTo]
  cases memRead s.cfg.txCap s.tx.buf s.tx.tail with
  | none => rfl
  | some v =>
    simp only [apply_ite (mapNext (goTo a))]
    rfl

theorem execRxh_goTo (a : App) (s : State) : execRxh (goTo a s) = mapNext (goTo a) (execRxh s) := by
  have hguard : rxhEnabled (goTo a s) = rxhEnabled s := rfl
  rw [execRxh, execRxh, hguard, rxhBody_goTo, apply_ite (mapNext (goTo a))]
  rfl

theorem execTxh_goTo (a : App) (s : State) : execTxh (goTo a s) = mapNext (goTo a) (execTxh s) := by
  have hguard : txhEnabled (goTo a s) = txhEnabled s := rfl
  rw [execTxh, execTxh, hguard, txhBody_goTo, apply_ite (mapNext (goTo a))]
  rfl

/-! ## What a firing leaves unchanged -/

theorem execRxh_ctrl {s t : State} (h : execRxh s = .next t) : t.ctrl = s.ctrl := by
  obtain ⟨-, ⟨-, rfl⟩ | ⟨-, -, rfl⟩⟩ := execRxh_cases h <;> rfl

theorem execRxh_respLog {s t : State} (h : execRxh s = .next t) : t.respLog = s.respLog := by
  obtain ⟨-, ⟨-, rfl⟩ | ⟨-, -, rfl⟩⟩ := execRxh_cases h <;> rfl

theorem execTxh_app {s t : State} (h : execTxh s = .next t) : t.app = s.app := by
  obtain ⟨-, -, ⟨-, rfl⟩ | ⟨-, rfl⟩⟩ := execTxh_cases h <;> simp

theorem execTxh_respLog {s t : State} (h : execTxh s = .next t) : t.respLog = s.respLog := by
  obtain ⟨-, -, ⟨-, rfl⟩ | ⟨-, rfl⟩⟩ := execTxh_cases h <;> simp

/-- A firing of TXH clears `TXIE` where it leaves the ring empty, and writes no other enable bit (42_transmit.md R212). -/
theorem execTxh_ctrl {s t : State} (h : execTxh s = .next t) :
    t.ctrl = { s.ctrl with txie := false } ∨ t.ctrl = s.ctrl := by
  obtain ⟨-, -, ⟨-, rfl⟩ | ⟨-, rfl⟩⟩ := execTxh_cases h
  · exact .inl (by simp)
  · exact .inr (by simp)

/-! ## The obligation -/

/-- Settles O50, handler by handler: the firing commutes with a change of `app`, and its cases say what `CTRL` keeps. -/
theorem firingsLeaveTheAppAlone : Obligations.FiringsLeaveTheAppAlone := by
  intro s i a hfiring
  cases i with
  | rxh =>
    refine ⟨execRxh_goTo a s, fun t hnext => ?_⟩
    have hctrl := execRxh_ctrl hnext
    rw [hctrl]
    exact ⟨execRxh_app hnext, rfl, fun _ => rfl, id, execRxh_respLog hnext⟩
  | txh =>
    refine ⟨execTxh_goTo a s, fun t hnext => ⟨execTxh_app hnext, ?_, nofun, ?_, execTxh_respLog hnext⟩⟩
    · rcases execTxh_ctrl hnext with hctrl | hctrl <;> rw [hctrl]
    · rcases execTxh_ctrl hnext with hctrl | hctrl <;> simp [hctrl]
  | init | write | avail | read | flush | step | lineRx | lineTx => cases hfiring

end Sys2Proof.Machine
end

section
/-! PROOFS. Reset (70_reset_and_hazards.md R300): what each ring slot reads after it, under both values of `BUF_INIT`;
every other element is the field `State.resetFrom` gives it. -/

namespace Sys2Proof.Machine

/-! ## A ring's slots after reset -/

theorem bufAtReset_zero_get (cap : Nat) (drawn : List Byte) (k : Nat) : (bufAtReset .zero cap drawn).get k = 0 := rfl

/-- The cut of the drawn list at the capacity takes no byte from a slot the ring has. -/
theorem bufAtReset_unspecified_get {cap k : Nat} (hk : k < cap) (drawn : List Byte) :
    (bufAtReset .unspecified cap drawn).get k = drawn.getD k 0 := by
  have hlisted := Memory.get_ofBytesFrom (drawn.take cap) 0 k
  rw [Nat.zero_add, List.getD_eq_getElem?_getD, List.getElem?_take_of_lt hk, ← List.getD_eq_getElem?_getD] at hlisted
  exact hlisted

/-! ## The obligation -/

/-- Settles O8: the registers, indices and logs are fields of `State.resetFrom`, and the slots of each ring read as the
two lemmas above say. -/
theorem resetLeavesEveryElementAsItsRuleSays : Obligations.ResetLeavesEveryElementAsItsRuleSays := by
  intro c d
  refine ⟨rfl, rfl, rfl, rfl, rfl, rfl, rfl, rfl, rfl, rfl, rfl, rfl, rfl, rfl, fun hzero k => ?_, fun hunspec => ?_⟩
  · simp only [State.resetFrom, hzero, bufAtReset_zero_get, and_self]
  · simp only [State.resetFrom, hunspec]
    exact ⟨fun _ hk => bufAtReset_unspecified_get hk d.rxBuf, fun _ hk => bufAtReset_unspecified_get hk d.txBuf⟩

end Sys2Proof.Machine
end


section
/-! PROOFS. Every transition, said once (60_exceptions.md R266): the equation of each agent's word where it is enabled,
the cases of a next state, and what each agent leaves unchanged. -/

namespace Sys2Proof.Machine

/-! ## The guards -/

theorem rxhGuard_iff (s : State) : rxhGuard s = true ↔ s.ctrl.rxie = true ∧ s.rxf = true := by
  simp [rxhGuard, rxPending]

theorem txhGuard_iff (s : State) : txhGuard s = true ↔ s.ctrl.txie = true ∧ s.thrf = false := by
  simp [txhGuard, txPending]

theorem rxhEnabled_iff (s : State) : rxhEnabled s = true ↔ s.ctrl.rxie = true ∧ s.rxf = true ∧
    (s.cfg.handlerArb = .txFirst → ¬(s.ctrl.txie = true ∧ s.thrf = false)) := by
  rw [← txhGuard_iff, ← and_assoc, ← rxhGuard_iff]
  cases hrx : rxhGuard s <;> cases htx : txhGuard s <;> simp [rxhEnabled, hrx, htx]

theorem txhEnabled_iff (s : State) : txhEnabled s = true ↔ s.ctrl.txie = true ∧ s.thrf = false ∧
    (s.cfg.handlerArb = .rxFirst → ¬(s.ctrl.rxie = true ∧ s.rxf = true)) := by
  rw [← rxhGuard_iff, ← and_assoc, ← txhGuard_iff]
  cases hrx : rxhGuard s <;> cases htx : txhGuard s <;> simp [txhEnabled, hrx, htx]

theorem lineTxEnabled_iff (s : State) : lineTxEnabled s = true ↔ s.ctrl.txen = true ∧ s.thrf = true := by
  simp [lineTxEnabled]

/-! ## The words of the handlers and of LINE where they are enabled -/

section
variable {s : State}

theorem exec_rxh_of_full (he : rxhEnabled s = true) (hfull : s.rx.isFull s.cfg.rxCap = true) :
    exec .rxh s = .next { s with rxf := false } := by
  simp [exec, execRxh, he, rxhBody, hfull, ackRdr]

theorem exec_rxh_of_not_full (he : rxhEnabled s = true) (hroom : s.rx.isFull s.cfg.rxCap = false)
    (hh : s.rx.head < s.cfg.rxCap) :
    exec .rxh s = .next { s with
      rxf := false
      rx := ⟨s.rx.buf.set s.rx.head s.rdr, next s.cfg.rxCap s.rx.head, s.rx.tail⟩ } := by
  simp [exec, execRxh, he, rxhBody, hroom, memWrite, hh, ackRdr]

theorem exec_rxh_of_not_enabled (he : rxhEnabled s = false) : exec .rxh s = .fault .rxhNotEnabled := by
  simp [exec, execRxh, he]

/-- An enabled TXH finds the THR empty, so the byte at the tail enters it (42_transmit.md R212, R221). -/
theorem exec_txh_of_enabled (he : txhEnabled s = true) (ht : s.tx.tail < s.cfg.txCap) :
    exec .txh s = .next { s with
      thr := s.tx.buf.get s.tx.tail
      thrf := true
      tx := ⟨s.tx.buf, s.tx.head, next s.cfg.txCap s.tx.tail⟩
      ctrl := { s.ctrl with txie := decide (next s.cfg.txCap s.tx.tail ≠ s.tx.head) } } := by
  obtain ⟨htxie, hthrf, -⟩ := (txhEnabled_iff s).mp he
  simp only [exec, execTxh, he, if_true, txhBody, memRead, ht, thrWrite_empty _ hthrf]
  split
  next hlast => simp [hlast, putTxie, setTxTail]
  next hmore => simp [hmore, setTxTail, ← htxie]

theorem exec_txh_of_not_enabled (he : txhEnabled s = false) : exec .txh s = .fault .txhNotEnabled := by
  simp [exec, execTxh, he]

theorem exec_lineTx_of_enabled (he : lineTxEnabled s = true) : exec .lineTx s = .next (drainThr s) := by
  simp [exec, execLineTx, he]

theorem exec_lineTx_of_not_enabled (he : lineTxEnabled s = false) : exec .lineTx s = .fault .lineTxNotEnabled := by
  simp [exec, execLineTx, he]

end

/-! ## The issues -/

/-- The stage an issue word starts its operation at (43_driver.md R243). -/
def firstStage : Instr → Option App
  | .init baud => some (.init .i1 baud)
  | .write b => some (.write .w1 b)
  | .avail => some (.avail .a1)
  | .read => some (.read .rd1)
  | .flush => some (.flush .f1)
  | .step | .rxh | .txh | .lineRx _ | .lineTx => none

theorem exec_of_firstStage {i : Instr} {a : App} (h : firstStage i = some a) (s : State) : exec i s = issue a s := by
  cases i <;> cases h <;> rfl

theorem cls_of_firstStage {i : Instr} {a : App} (h : firstStage i = some a) : i.cls = .issue := by
  cases i <;> cases h <;> rfl

theorem init_of_firstStage {i : Instr} {a : App} (h : firstStage i = some a) (hop : a.op = some .init) :
    ∃ baud, i = .init baud := by
  cases i with
  | init baud => exact ⟨baud, rfl⟩
  | write | avail | read | flush => cases h; cases hop
  | step | rxh | txh | lineRx | lineTx => cases h

theorem flush_of_firstStage {i : Instr} {a : App} (h : firstStage i = some a) (hop : a.op = some .flush) :
    i = .flush := by
  cases i with
  | flush => rfl
  | init | write | avail | read => cases h; cases hop
  | step | rxh | txh | lineRx | lineTx => cases h

theorem exists_firstStage_of_cls {i : Instr} (h : i.cls = .issue) : ∃ a, firstStage i = some a := by
  cases i with
  | init | write | avail | read | flush => exact ⟨_, rfl⟩
  | step | rxh | txh | lineRx | lineTx => cases h

theorem issue_of_busy {s : State} (h : s.app.isBusy = true) (a : App) : issue a s = .next (refuse s) := by
  rw [issue_eq, if_pos h]

theorem App.isBusy_eq_false_iff (a : App) : a.isBusy = false ↔ a = .idle := by
  cases a <;> simp [App.isBusy]

/-! ## The cases of a transition -/

/-- What a word can do where its step happens, agent by agent. -/
inductive Transition (s : State) : Instr → State → Prop where
  | refused {i : Instr} {a : App} (hi : firstStage i = some a) (hbusy : s.app.isBusy = true) :
    Transition s i (refuse s)
  | issued {i : Instr} {a : App} (hi : firstStage i = some a) (hidle : s.app = .idle) : Transition s i (goTo a s)
  | app {t : State} (h : AppStep s t) : Transition s .step t
  | rxhDrop (he : rxhEnabled s = true) (hfull : s.rx.isFull s.cfg.rxCap = true) :
    Transition s .rxh { s with rxf := false }
  | rxhStore (he : rxhEnabled s = true) (hroom : s.rx.isFull s.cfg.rxCap = false) (hh : s.rx.head < s.cfg.rxCap) :
    Transition s .rxh { s with
      rxf := false
      rx := ⟨s.rx.buf.set s.rx.head s.rdr, next s.cfg.rxCap s.rx.head, s.rx.tail⟩ }
  | txh (he : txhEnabled s = true) (ht : s.tx.tail < s.cfg.txCap) :
    Transition s .txh { s with
      thr := s.tx.buf.get s.tx.tail
      thrf := true
      tx := ⟨s.tx.buf, s.tx.head, next s.cfg.txCap s.tx.tail⟩
      ctrl := { s.ctrl with txie := decide (next s.cfg.txCap s.tx.tail ≠ s.tx.head) } }
  | lineRxFill {d : Byte} (hen : s.ctrl.rxen = true) : Transition s (.lineRx d) (fillRdr d s)
  | lineRxLost {d : Byte} : Transition s (.lineRx d) s
  | lineTx (hen : s.ctrl.txen = true) (hfull : s.thrf = true) : Transition s .lineTx (drainThr s)

theorem transition_of_firstStage {i : Instr} {a : App} {s t : State} (hi : firstStage i = some a)
    (h : exec i s = .next t) : Transition s i t := by
  rw [exec_of_firstStage hi, issue_eq] at h
  split at h
  next hbusy => cases h; exact .refused hi hbusy
  next hidle => cases h; exact .issued hi ((App.isBusy_eq_false_iff _).mp (by simpa using hidle))

/-- Every transition is one of the cases. -/
theorem exec_cases {i : Instr} {s t : State} (h : exec i s = .next t) : Transition s i t := by
  cases i with
  | init | write | avail | read | flush => exact transition_of_firstStage rfl h
  | step => exact .app (execStep_cases h)
  | rxh =>
    obtain ⟨he, ⟨hfull, rfl⟩ | ⟨hroom, hh, rfl⟩⟩ := execRxh_cases h
    · exact .rxhDrop he hfull
    · exact .rxhStore he hroom hh
  | txh =>
    obtain ⟨he, ht, -⟩ := execTxh_cases h
    cases (exec_txh_of_enabled he ht).symm.trans h
    exact .txh he ht
  | lineRx d =>
    obtain ⟨hen, -, heq⟩ | ⟨-, heq⟩ := execLineRx_cases d s <;> cases heq.symm.trans h
    · exact .lineRxFill hen
    · exact .lineRxLost
  | lineTx =>
    obtain ⟨hen, hfull, rfl⟩ := execLineTx_cases h
    exact .lineTx hen hfull

/-! ## What a stage of the App leaves unchanged -/

/-- What no stage writes: the elements of the other agents (10_state.md R49) and the bookkeeping that is not the App's.
-/
structure AppFrame (s t : State) : Prop where
  cfg : t.cfg = s.cfg
  rxBuf : t.rx.buf = s.rx.buf
  rxHead : t.rx.head = s.rx.head
  txTail : t.tx.tail = s.tx.tail
  rdr : t.rdr = s.rdr
  rxf : t.rxf = s.rxf
  refused : t.refused = s.refused
  lineOut : t.lineOut = s.lineOut
  schedule : t.schedule = s.schedule

theorem AppStep.frame {s t : State} (h : AppStep s t) : AppFrame s t := by
  cases h <;> constructor <;> simp [drawOf]

theorem exec_cfg {i : Instr} {s t : State} (h : exec i s = .next t) : t.cfg = s.cfg := by
  cases exec_cases h with
  | app hstage => exact hstage.frame.cfg
  | _ => rfl

theorem exec_schedule {i : Instr} {s t : State} (h : exec i s = .next t) : t.schedule = s.schedule := by
  cases exec_cases h with
  | app hstage => exact hstage.frame.schedule
  | _ => rfl

theorem execAll_cfg {is : List Instr} {s t : State} (h : execAll is s = .next t) : t.cfg = s.cfg :=
  execAll_induct (P := fun u => u.cfg = s.cfg) (fun _ _ _ hu hstep => (exec_cfg hstep).trans hu) rfl h

theorem AppStep.respLog_prefix {s t : State} (h : AppStep s t) : s.respLog <+: t.respLog := by
  cases h <;> simp [drawOf]

end Sys2Proof.Machine
end

section
/-! PROOFS. Who writes what (10_state.md R32 to R50): each statement by the cases of a transition, the App's stages by
their frame. -/

namespace Sys2Proof.Machine

/-! ## The bookkeeping -/

/-- Settles O13, transition by transition. -/
theorem bookkeepingOnlyGrows : Obligations.BookkeepingOnlyGrows := by
  intro s t i h
  cases exec_cases h with
  | refused hi =>
    exact ⟨fun _ => rfl, List.prefix_rfl, List.prefix_rfl, fun _ => rfl, fun _ => rfl,
      fun hne => absurd (cls_of_firstStage hi) hne⟩
  | app hstage =>
    refine ⟨fun hr => hstage.frame.refused.trans hr, hstage.frame.lineOut ▸ List.prefix_rfl, hstage.respLog_prefix,
      fun _ => hstage.frame.lineOut, fun hne => absurd rfl hne, fun _ => hstage.frame.refused⟩
  | lineTx =>
    exact ⟨id, List.prefix_append .., List.prefix_rfl, fun hne => absurd rfl hne, fun _ => rfl, fun _ => rfl⟩
  | issued | rxhDrop | rxhStore | txh | lineRxFill | lineRxLost =>
    exact ⟨id, List.prefix_rfl, List.prefix_rfl, fun _ => rfl, fun _ => rfl, fun _ => rfl⟩

/-! ## The ownership table -/

theorem agent_of_firstStage {i : Instr} {a : App} (h : firstStage i = some a) : i.agent = .app := by
  cases i <;> cases h <;> rfl

/-- Settles O14, by the one word each case of a transition has: its clauses ask about that word, or about an element it
does not write. -/
theorem elementsChangeOnlyUnderTheirWriters : Obligations.ElementsChangeOnlyUnderTheirWriters := by
  intro s t i h
  cases exec_cases h with
  | refused => simp
  | issued hi => simp [agent_of_firstStage hi]
  | app hstage =>
    obtain ⟨-, hbuf, hhead, htail, hrdr, hrxf, -, -, -⟩ := hstage.frame
    simp [hbuf, hhead, htail, hrdr, hrxf, Instr.agent]
  | rxhDrop | rxhStore | txh | lineRxFill | lineRxLost | lineTx => simp

/-! ## The slots -/

theorem AppStep.txBuf {s t : State} (h : AppStep s t) :
    t.tx.buf = s.tx.buf ∨ ∃ l b, s.app = .write (.wm l) b ∧ t.tx.buf = s.tx.buf.set l.h b := by
  cases h with
  | wm ha => exact .inr ⟨_, _, ha, rfl⟩
  | _ => exact .inl (by simp [drawOf])

/-- Settles O15: RXH's store and WRITE stage WM are the two writes of a slot, and each leaves the others alone. -/
theorem slotsChangeOnlyWhereStored : Obligations.SlotsChangeOnlyWhereStored := by
  intro s t i h
  cases exec_cases h with
  | app hstage =>
    refine ⟨fun a _ => by rw [hstage.frame.rxBuf], fun a ha => ?_⟩
    obtain heq | ⟨l, b, happ, heq⟩ := hstage.txBuf
    · rw [heq]
    · rw [heq, Memory.get_set_other _ _ (ha l b rfl happ)]
  | rxhStore =>
    refine ⟨fun a ha => ?_, fun _ _ => rfl⟩
    exact Memory.get_set_other _ _ (ha.resolve_left (absurd rfl))
  | refused | issued | rxhDrop | txh | lineRxFill | lineRxLost | lineTx => exact ⟨fun _ _ => rfl, fun _ _ => rfl⟩

/-! ## The control bits -/

section
variable {s t : State} (h : AppStep s t)
include h

theorem AppStep.txen_iff : t.ctrl.txen = true ↔ s.ctrl.txen = true ∨ ∃ baud, s.app = .init .i2 baud := by
  cases h <;> simp [drawOf, *]

theorem AppStep.rxen_iff : t.ctrl.rxen = true ↔ s.ctrl.rxen = true ∨ ∃ baud, s.app = .init .i3 baud := by
  cases h <;> simp [drawOf, *]

theorem AppStep.rxie_iff : t.ctrl.rxie = true ↔ s.ctrl.rxie = true ∨ ∃ baud, s.app = .init .i4 baud := by
  cases h <;> simp [drawOf, *]

theorem AppStep.txie_iff : t.ctrl.txie = true ↔ s.ctrl.txie = true ∨ ∃ l b, s.app = .write (.we l) b := by
  cases h <;> simp [drawOf, *]

end

/-- Settles O16, by one rule per bit for the App's stages, and by TXH's one write of `TXIE`. -/
theorem controlBitsAreSetAndClearedAsListed : Obligations.ControlBitsAreSetAndClearedAsListed := by
  intro s t i h
  cases exec_cases h with
  | app hstage =>
    refine ⟨by simp [hstage.txen_iff], by simp [hstage.rxen_iff], by simp [hstage.rxie_iff], fun hclear hset => ?_,
      fun hset => ?_⟩
    · simpa [hclear] using hstage.txie_iff.mp hset
    · simp [hstage.txie_iff.mpr (.inl hset)]
  | txh he =>
    obtain ⟨hset, -, -⟩ := (txhEnabled_iff s).mp he
    simp [hset]
  | refused hi | issued hi =>
    have hne : i ≠ .step ∧ i ≠ .txh := by constructor <;> rintro rfl <;> cases hi
    simp +contextual [hne]
  | rxhDrop | rxhStore | lineRxFill | lineRxLost | lineTx => simp +contextual

end Sys2Proof.Machine
end

section
/-! PROOFS. The encoder and the decoder are inverse, and the step of a schedule's next word (30_encoding.md R100 to
R105). -/

namespace Sys2Proof

/-! ## The words -/

theorem argByte_zeroExtend (b : Byte) : argByte (b.zeroExtend 32) = b := by
  rw [BitVec.zeroExtend, BitVec.setWidth_eq_append (by decide)]
  exact BitVec.extractLsb'_append_eq_right (a := 0#24)

theorem rowOf_opOf_argOf (i : Instr) : rowOf (opOf i) (argOf i) = some i := by
  cases i with
  | write b | lineRx b => simp [rowOf, opOf, argOf, argByte_zeroExtend]
  | _ => rfl

theorem argWellFormed_opOf_argOf (i : Instr) : argWellFormed (opOf i) (argOf i) = true := by
  cases i with
  | write b => exact (Laws.EncodeSelectsRow.write b).2.1
  | lineRx d => exact (Laws.EncodeSelectsRow.lineRx d).2.1
  | _ => rfl

/-- Settles O2: the two fields of an instruction's word name its row and pass the argument check. -/
theorem decodeOfEncode : Obligations.DecodeOfEncode := by
  intro i
  rw [decode_eq_row_iff, encode, opField_append, argField_append]
  exact ⟨rowOf_opOf_argOf i, argWellFormed_opOf_argOf i⟩

/-- Settles O1, word by word. -/
theorem specWordsDecode : Obligations.SpecWordsDecode := by
  unfold Obligations.SpecWordsDecode
  decide

theorem decode_of_selects_none {w : OpWord} (h : ∀ r ∈ opcodeTable, r.selects w = false) :
    ∃ why, decode w = .reserved why := by
  obtain ⟨i, r, -, -, honly, -⟩ | ⟨why, hwhy, -⟩ := everyWordIsOneRowOrReserved w
  · rw [List.filter_eq_nil_iff.mpr fun r hr => by simp [h r hr]] at honly
    cases honly
  · exact ⟨why, hwhy⟩

end Sys2Proof

namespace Sys2Proof.Machine

/-! ## The step -/

theorem step_of_schedule {s : State} {w : OpWord} {rest : List OpWord} (h : s.schedule = w :: rest) :
    step s = execWord w (takeWord rest s) := by
  simp [step, runNext, h]

theorem execWord_of_row {w : OpWord} {i : Instr} (h : decode w = .row i) (s : State) : execWord w s = exec i s := by
  simp [execWord, h]

theorem execWord_of_reserved {w : OpWord} {why : Reserved} (h : decode w = .reserved why) (s : State) :
    execWord w s = .next (refuse s) := by
  simp [execWord, h]

/-- A word's step is that of its instruction, or the mark of a refusal. -/
theorem execWord_cases {w : OpWord} {s t : State} (h : execWord w s = .next t) :
    (∃ i, decode w = .row i ∧ exec i s = .next t) ∨ (∃ why, decode w = .reserved why ∧ t = refuse s) := by
  cases hd : decode w with
  | row i => exact .inl ⟨i, rfl, execWord_of_row hd s ▸ h⟩
  | reserved why =>
    cases (execWord_of_reserved hd s).symm.trans h
    exact .inr ⟨why, rfl, rfl⟩

/-- A step that gives a next state takes a word from the schedule and runs it. -/
theorem step_cases {s t : State} (h : step s = .next t) :
    ∃ w rest, s.schedule = w :: rest ∧ execWord w (takeWord rest s) = .next t := by
  cases hs : s.schedule with
  | nil => simp [step, runNext, hs] at h
  | cons w rest => exact ⟨w, rest, rfl, step_of_schedule hs ▸ h⟩

/-- A property that taking a word, a refusal and every transition keep is kept by a step. -/
theorem step_preserves {P : State → Prop} (htake : ∀ rest s, P s → P (takeWord rest s)) (href : ∀ s, P s → P (refuse s))
    (hexec : ∀ i s t, P s → exec i s = .next t → P t) {s t : State} (hs : P s) (h : step s = .next t) : P t := by
  obtain ⟨w, rest, -, hw⟩ := step_cases h
  obtain ⟨i, -, hi⟩ | ⟨-, -, rfl⟩ := execWord_cases hw
  · exact hexec i _ t (htake rest s hs) hi
  · exact href _ (htake rest s hs)

/-- Settles O4: a word that selects no row is reserved. -/
theorem reservedWordOnlyMarksRefusal : Obligations.ReservedWordOnlyMarksRefusal := by
  intro s w rest hs hnone
  obtain ⟨why, hwhy⟩ := decode_of_selects_none hnone
  rw [step_of_schedule hs, execWord_of_reserved hwhy]
  rfl

theorem schedule_withFetchWord_encode (s : State) (i : Instr) :
    (s.withFetchWord 40 (encode i).toNat).schedule = encode i :: s.schedule := by
  have hlt : (encode i).toNat < 2 ^ 40 := (encode i).isLt
  rw [State.withFetchWord, placeWord, Nat.mod_eq_of_lt hlt, BitVec.ofNat_toNat, BitVec.setWidth_eq]

/-- Settles O5, by the equations of a step; the word placed for an instruction decodes to it. -/
theorem stepRunsScheduledInstruction : Obligations.StepRunsScheduledInstruction := by
  refine ⟨fun s w rest i hs hd => ?_, fun s i => ?_, fun s hs => by simp [step, runNext, hs]⟩
  · rw [step_of_schedule hs, execWord_of_row hd]
    rfl
  · rw [step_of_schedule (schedule_withFetchWord_encode s i), execWord_of_row (decodeOfEncode i)]
    rfl

/-- Settles O6: no transition writes either field, so a step's one write of them is to take its word. -/
theorem stepKeepsConfigAndTakesOneWord : Obligations.StepKeepsConfigAndTakesOneWord := by
  intro s t h
  obtain ⟨w, rest, hs, hw⟩ := step_cases h
  obtain ⟨i, -, hi⟩ | ⟨-, -, rfl⟩ := execWord_cases hw
  · exact ⟨(exec_cfg hi).trans rfl, w, by rw [exec_schedule hi]; exact hs⟩
  · exact ⟨rfl, w, hs⟩

end Sys2Proof.Machine
end

section
/-! PROOFS. The stages of WRITE and of an inverted READ, one equation each (42_transmit.md R201 to R207; 41_receive.md
R171), and the words of the handlers and of LINE_TX where they are enabled and where they are held. -/

namespace Sys2Proof.Machine

/-! ## The stages -/

section
variable {s : State} {b : Byte}

theorem exec_write_of_idle (h : s.app = .idle) : exec (.write b) s = .next (goTo (.write .w1 b) s) :=
  issue_of_idle h _

theorem exec_step_of_idle (h : s.app = .idle) : exec .step s = .fault .stepNotEnabled := by
  simp [exec, execStep, h]

theorem exec_step_w1_hwFirst (h : s.app = .write .w1 b) (ho : s.cfg.directCheckOrder = .hwFirst) :
    exec .step s = .next (goTo (.write (.w2 (.hw (!s.thrf))) b) s) := by
  simp [exec, execStep, h, stageW1, ho]

theorem exec_step_w1_ringFirst (h : s.app = .write .w1 b) (ho : s.cfg.directCheckOrder = .ringFirst) :
    exec .step s = .next (goTo (.write (.w2 (.ring s.tx.head s.tx.tail)) b) s) := by
  simp [exec, execStep, h, stageW1, ho]

theorem exec_step_w2 {first : FirstRead} {e : Bool} {p q : Nat} (h : s.app = .write (.w2 first) b)
    (ht : directTest first s = (e, p, q)) :
    exec .step s = .next (goTo
      (if e = true ∧ p = q then .write (.wd e p q) b else .write (.ws ⟨e, p, q, next s.cfg.txCap p⟩) b) s) := by
  simp only [exec, execStep, h, stageW2, ht, Bool.and_eq_true, beq_iff_eq]
  split <;> rfl

variable {l : WriteLocals}

theorem exec_step_ws_of_room (h : s.app = .write (.ws l) b) (hne : l.nh ≠ s.tx.tail) :
    exec .step s = .next (goTo (.write (.wm { l with t := s.tx.tail }) b) s) := by
  simp [exec, execStep, h, stageWs, hne]

theorem exec_step_ws_of_full (h : s.app = .write (.ws l) b) (heq : l.nh = s.tx.tail) : exec .step s = .next s := by
  simp [exec, execStep, h, stageWs, heq]

theorem exec_step_wm (h : s.app = .write (.wm l) b) (hl : l.h < s.cfg.txCap) :
    exec .step s = .next (goTo (.write (.wh l) b) { s with tx := ⟨s.tx.buf.set l.h b, s.tx.head, s.tx.tail⟩ }) := by
  simp [exec, execStep, h, stageWm, memWrite, hl]

theorem exec_step_wh (h : s.app = .write (.wh l) b) :
    exec .step s = .next (goTo (.write (.we l) b) (setTxHead l.nh s)) := by
  simp [exec, execStep, h, stageWh]

theorem exec_step_we (h : s.app = .write (.we l) b) :
    exec .step s = .next (finish (respWord (.done .write)) (putTxie true s)) := by
  simp [exec, execStep, h, stageWe]

theorem exec_step_rd1_inverted (h : s.app = .read .rd1) (hc : s.cfg.readPolarity = .inverted) :
    exec .step s = .next (if s.rx.head = s.rx.tail then goTo (.read (.rd2 s.rx.head s.rx.tail)) s
      else finish (respWord .noData) s) := by
  simp only [exec, execStep, h, stageRd1, hc, Bool.not_eq_true', ← Bool.not_eq_true, s.rx.isEmpty_iff, ite_not]
  split <;> rfl

theorem exec_step_rd3_inverted {p q : Nat} {v : Byte} (h : s.app = .read (.rd3 p q v))
    (hc : s.cfg.readPolarity = .inverted) :
    exec .step s = .next (finish (respWord (.data v))
      (setRxTail (drawOf q (next s.cfg.rxCap q) s).1 { s with draws := s.draws + 1 })) := by
  simp [exec, execStep, h, stageRd3, hc, drawOf]

end

/-! ## The obligations about single stages and words -/

/-- Settles O18, by the equation of an issue on an idle and on a busy App. -/
theorem issueStartsTheOperationOrIsRefused : Obligations.IssueStartsTheOperationOrIsRefused := by
  intro s baud b
  refine ⟨fun hidle => ?_, fun hbusy => ?_⟩
  · exact ⟨exec_init_of_idle hidle, exec_write_of_idle hidle, exec_avail_of_idle hidle, exec_read_of_idle hidle,
      exec_flush_of_idle hidle⟩
  · have hrefused : ∀ a, issue a s = .next { s with refused := true } :=
      issue_of_busy (by rwa [Ne, ← App.isBusy_eq_false_iff, Bool.not_eq_false] at hbusy)
    exact ⟨hrefused _, hrefused _, hrefused _, hrefused _, hrefused _⟩

/-- Settles O22, by the equations of W1 under each order and of W2 after each first read. -/
theorem writeTestsTheDirectPathInTwoStages : Obligations.WriteTestsTheDirectPathInTwoStages := by
  intro s b e h t
  refine ⟨exec_step_w1_hwFirst, exec_step_w1_ringFirst, fun ha => exec_step_w2 ha rfl, fun ha => ?_⟩
  simp only [exec_step_w2 ha rfl, Bool.not_eq_true']
  rfl

/-- Settles O24, stage by stage; what the store of WM leaves in each slot is the law of ring storage. -/
theorem bufferedStagesStorePublishAndArm : Obligations.BufferedStagesStorePublishAndArm := by
  intro s b l
  exact ⟨exec_step_ws_of_room, exec_step_ws_of_full,
    fun ha hl hwf => ⟨exec_step_wm ha hl, Memory.get_set_same hwf _ _, fun _ hne => Memory.get_set_other _ _ hne⟩,
    exec_step_wh, exec_step_we⟩

/-- Settles O30, by the equation of an enabled TXH and the terms of its guard. -/
theorem txhSendsTheByteAtTheTail : Obligations.TxhSendsTheByteAtTheTail := by
  intro s
  refine ⟨rfl, fun htxie hthrf ht hturn => ?_, fun hoff => ?_⟩
  · exact exec_txh_of_enabled ((txhEnabled_iff s).mpr ⟨htxie, hthrf, hturn⟩) ht
  · refine exec_txh_of_not_enabled (Bool.eq_false_iff.mpr fun he => ?_)
    obtain ⟨htxie, hthrf, -⟩ := (txhEnabled_iff s).mp he
    simp [htxie, hthrf] at hoff

/-- Settles O31, by the equation of LINE_TX and the terms of its guard. -/
theorem lineTxTakesTheThrByte : Obligations.LineTxTakesTheThrByte := by
  intro s
  refine ⟨rfl, fun htxen hthrf => exec_lineTx_of_enabled ((lineTxEnabled_iff s).mpr ⟨htxen, hthrf⟩), fun hoff => ?_⟩
  refine exec_lineTx_of_not_enabled (Bool.eq_false_iff.mpr fun he => ?_)
  obtain ⟨htxen, hthrf⟩ := (lineTxEnabled_iff s).mp he
  simp [htxen, hthrf] at hoff

/-- Settles O37, by the equations of RXH on a full ring and on one with room, and the terms of its guard. -/
theorem rxhStoresOrDropsTheByte : Obligations.RxhStoresOrDropsTheByte := by
  intro s
  refine ⟨rfl, fun hrxie hrxf hturn => ?_, fun hoff => ?_⟩
  · have he := (rxhEnabled_iff s).mpr ⟨hrxie, hrxf, hturn⟩
    refine ⟨fun hfull => exec_rxh_of_full he ((s.rx.isFull_iff _).mpr hfull), fun hroom hh hwf => ?_⟩
    have hnot : s.rx.isFull s.cfg.rxCap = false := Bool.eq_false_iff.mpr (mt (s.rx.isFull_iff _).mp hroom)
    exact ⟨s.rx.buf.set s.rx.head s.rdr, exec_rxh_of_not_full he hnot hh,
      Memory.get_set_same hwf _ _, fun _ hne => Memory.get_set_other _ _ hne⟩
  · refine exec_rxh_of_not_enabled (Bool.eq_false_iff.mpr fun he => ?_)
    obtain ⟨hrxie, hrxf, -⟩ := (rxhEnabled_iff s).mp he
    simp [hrxie, hrxf] at hoff

/-- Settles O40, stage by stage; a tail one past the head of an empty ring is `C - 1` steps before that head. -/
theorem invertedReadReturnsAStaleByte : Obligations.InvertedReadReturnsAStaleByte := by
  intro s h t v hc
  refine ⟨rfl, exec_read_of_idle, fun ha hne => ?_, fun ha hempty => ?_, exec_step_rd2, fun ha => ?_, ?_⟩
  · rw [exec_step_rd1_inverted ha hc, if_neg hne]
    rfl
  · rw [exec_step_rd1_inverted ha hc, if_pos hempty]
    rfl
  · refine ⟨_, (drawOf_cases t (next s.cfg.rxCap t) s).1, ?_⟩
    rw [exec_step_rd3_inverted ha hc, respWord_data]
    rfl
  · rintro rfl hh -
    exact (subMod_eq_last_iff hh (next_lt (Nat.zero_lt_of_lt hh) _)).mpr rfl

/-! ## Holds -/

theorem exec_rxh_eq_fault_iff (s : State) : exec .rxh s = .fault .rxhNotEnabled ↔ rxhEnabled s = false := by
  refine ⟨fun h => ?_, exec_rxh_of_not_enabled⟩
  by_contra he
  simp only [exec, execRxh, Bool.eq_true_of_not_eq_false he, if_true, rxhBody] at h
  split at h <;> [skip; split at h] <;> cases h

theorem exec_txh_eq_fault_iff (s : State) : exec .txh s = .fault .txhNotEnabled ↔ txhEnabled s = false := by
  refine ⟨fun h => ?_, exec_txh_of_not_enabled⟩
  by_contra he
  simp only [exec, execTxh, Bool.eq_true_of_not_eq_false he, if_true, txhBody] at h
  split at h <;> [skip; split at h] <;> cases h

theorem exec_lineTx_eq_fault_iff (s : State) : exec .lineTx s = .fault .lineTxNotEnabled ↔ lineTxEnabled s = false := by
  refine ⟨fun h => ?_, exec_lineTx_of_not_enabled⟩
  by_contra he
  rw [exec_lineTx_of_enabled (Bool.eq_true_of_not_eq_false he)] at h
  cases h

/-- A STEP of a busy App happens, unless its stage is at a slot that does not exist (20_memory.md R70). -/
theorem exec_step_of_busy {s : State} (hbusy : s.app ≠ .idle) : (∃ t, exec .step s = .next t) ∨
    (∃ l b, s.app = .write (.wm l) b ∧ s.cfg.txCap ≤ l.h ∧ exec .step s = .fault (.noSuchSlot .tx l.h)) ∨
    (∃ h t, s.app = .read (.rd2 h t) ∧ s.cfg.rxCap ≤ t ∧ exec .step s = .fault (.noSuchSlot .rx t)) := by
  cases ha : s.app with
  | idle => exact absurd ha hbusy
  | init stage baud =>
    cases stage with
    | i1 => exact .inl ⟨_, exec_step_i1 ha⟩
    | i2 => exact .inl ⟨_, exec_step_i2 ha⟩
    | i3 => exact .inl ⟨_, exec_step_i3 ha⟩
    | i4 => exact .inl ⟨_, exec_step_i4 ha⟩
  | write stage b =>
    cases stage with
    | w1 =>
      cases ho : s.cfg.directCheckOrder with
      | hwFirst => exact .inl ⟨_, exec_step_w1_hwFirst ha ho⟩
      | ringFirst => exact .inl ⟨_, exec_step_w1_ringFirst ha ho⟩
    | w2 => exact .inl ⟨_, exec_step_w2 ha rfl⟩
    | wd => exact .inl ⟨_, exec_step_wd ha⟩
    | ws l =>
      by_cases hfull : l.nh = s.tx.tail
      · exact .inl ⟨_, exec_step_ws_of_full ha hfull⟩
      · exact .inl ⟨_, exec_step_ws_of_room ha hfull⟩
    | wm l =>
      by_cases hl : l.h < s.cfg.txCap
      · exact .inl ⟨_, exec_step_wm ha hl⟩
      · exact .inr (.inl ⟨l, b, rfl, Nat.le_of_not_lt hl, by simp [exec, execStep, ha, stageWm, memWrite, hl]⟩)
    | wh => exact .inl ⟨_, exec_step_wh ha⟩
    | we => exact .inl ⟨_, exec_step_we ha⟩
  | avail => exact .inl ⟨_, exec_step_a1 ha⟩
  | read stage =>
    cases stage with
    | rd1 =>
      cases hc : s.cfg.readPolarity with
      | contract => exact .inl ⟨_, exec_step_rd1 ha hc⟩
      | inverted => exact .inl ⟨_, exec_step_rd1_inverted ha hc⟩
    | rd2 h t =>
      by_cases ht : t < s.cfg.rxCap
      · exact .inl ⟨_, exec_step_rd2 ha ht⟩
      · exact .inr (.inr ⟨h, t, rfl, Nat.le_of_not_lt ht, by simp [exec, execStep, ha, stageRd2, memRead, ht]⟩)
    | rd3 =>
      cases hc : s.cfg.readPolarity with
      | contract => exact .inl ⟨_, exec_step_rd3 ha hc⟩
      | inverted => exact .inl ⟨_, exec_step_rd3_inverted ha hc⟩
  | flush stage =>
    cases stage with
    | f1 => exact .inl ⟨_, exec_step_f1 ha⟩
    | f2 => exact .inl ⟨_, exec_step_f2 ha⟩

theorem exec_step_eq_fault_iff (s : State) : exec .step s = .fault .stepNotEnabled ↔ s.app = .idle := by
  refine ⟨fun h => ?_, exec_step_of_idle⟩
  by_contra hbusy
  obtain ⟨t, ht⟩ | ⟨l, b, -, -, hf⟩ | ⟨p, q, -, -, hf⟩ := exec_step_of_busy hbusy
  · cases h.symm.trans ht
  · cases h.symm.trans hf
  · cases h.symm.trans hf

/-- Settles O52: each of the four words is held exactly where its term of `quiescent` says. -/
theorem quiescentStatesOnlyAwaitInput : Obligations.QuiescentStatesOnlyAwaitInput := by
  intro s
  rw [exec_step_eq_fault_iff, exec_rxh_eq_fault_iff, exec_txh_eq_fault_iff, exec_lineTx_eq_fault_iff,
    ← App.isBusy_eq_false_iff]
  simp [quiescent, and_assoc]

/-- Settles O9: at reset both enable bits of the handlers' guards are 0. -/
theorem noHandlerIsEnabledAtReset : Obligations.NoHandlerIsEnabledAtReset := fun _ _ =>
  ⟨rfl, rfl, rfl, exec_rxh_of_not_enabled rfl, exec_txh_of_not_enabled rfl⟩

end Sys2Proof.Machine
end

section
/-! PROOFS. The invariant (10_state.md R38, R48, R49): each part of `Consistent` is kept by every transition. A stage of
the App keeps it because the locals say which slots and indices it is about to use; the other agents because they write
nothing the locals speak of. -/

namespace Sys2Proof.Machine

/-! ## What the configuration check gives -/

theorem txCap_ge_two_of_wf {c : Config} (h : c.wf = true) : 2 ≤ c.txCap := by
  simp only [Config.wf, Bool.and_eq_true, decide_eq_true_eq] at h
  omega

theorem rxCap_ge_two_of_wf {c : Config} (h : c.wf = true) : 2 ≤ c.rxCap := by
  simp only [Config.wf, Bool.and_eq_true, decide_eq_true_eq] at h
  omega

theorem next_ne_self {cap i : Nat} (hcap : 2 ≤ cap) (h : i < cap) : next cap i ≠ i :=
  mt (next_eq_self_iff h).mp (by omega)

theorem writeLocalsOk_iff (s : State) (l : WriteLocals) :
    writeLocalsOk s l = true ↔ l.h = s.tx.head ∧ l.nh = next s.cfg.txCap l.h ∧ l.t < s.cfg.txCap := by
  simp [writeLocalsOk, and_assoc]

/-- The locals of a READ that is past its availability test. -/
theorem reading_of_appOk {s : State} {h t : Nat} {v : Byte} (hok : appOk s = true)
    (ha : s.app = .read (.rd2 h t) ∨ s.app = .read (.rd3 h t v)) : t = s.rx.tail ∧ h < s.cfg.rxCap := by
  rcases ha with ha | ha <;> simp only [appOk, ha, Bool.and_eq_true, beq_iff_eq, decide_eq_true_eq] at hok
  · exact hok.1
  · exact hok.1

/-- Whichever read W1 made, the head WRITE holds at W2 is the head, and its tail a slot. -/
theorem directTest_indices {s : State} {first : FirstRead} {b : Byte} {e : Bool} {p q : Nat} (hok : appOk s = true)
    (htail : s.tx.tail < s.cfg.txCap) (ha : s.app = .write (.w2 first) b) (ht : directTest first s = (e, p, q)) :
    p = s.tx.head ∧ q < s.cfg.txCap := by
  cases first with
  | hw => cases ht; exact ⟨rfl, htail⟩
  | ring => cases ht; simpa [appOk, ha] using hok

/-! ## The rings -/

section
variable {s t : State} (hcons : Consistent s)
include hcons

theorem AppStep.rx_wf (h : AppStep s t) : t.rx.wf s.cfg.rxCap = true := by
  obtain ⟨-, hrx, -, -, hok⟩ := hcons
  obtain ⟨hh, ht, hbuf⟩ := (s.rx.wf_iff _).mp hrx
  have htail : ∀ q < s.cfg.rxCap, Ring.wf s.cfg.rxCap ⟨s.rx.buf, s.rx.head, q⟩ = true := fun q hq =>
    (Ring.wf_iff _ _).mpr ⟨hh, hq, hbuf⟩
  have hnext : ∀ q, next s.cfg.rxCap q < s.cfg.rxCap := next_lt (Nat.zero_lt_of_lt hh)
  cases h with
  | rd3Contract => exact htail _ (hnext _)
  | rd3Inverted ha =>
    obtain ⟨rfl, -⟩ := reading_of_appOk hok (.inr ha)
    refine htail _ ?_
    rcases (drawOf_cases s.rx.tail (next s.cfg.rxCap s.rx.tail) s).1 with heq | heq <;> rw [heq]
    · exact ht
    · exact hnext _
  | f2 ha =>
    simp only [appOk, ha, decide_eq_true_eq] at hok
    exact htail _ hok
  | _ => simpa using hrx

theorem AppStep.tx_wf (h : AppStep s t) : t.tx.wf s.cfg.txCap = true := by
  obtain ⟨-, -, htx, -, hok⟩ := hcons
  obtain ⟨hh, ht, hbuf⟩ := (s.tx.wf_iff _).mp htx
  cases h with
  | wm _ hl => exact (Ring.wf_iff _ _).mpr ⟨hh, ht, Memory.set_wfFrom hbuf (Nat.zero_le _) hl _⟩
  | wh ha =>
    simp only [appOk, ha, Bool.and_eq_true, writeLocalsOk_iff] at hok
    obtain ⟨⟨-, hnh, -⟩, -⟩ := hok
    refine (Ring.wf_iff _ _).mpr ⟨?_, ht, hbuf⟩
    rw [hnh]
    exact next_lt (Nat.zero_lt_of_lt hh) _
  | _ => simpa [drawOf] using htx

theorem exec_rx_wf {i : Instr} (h : exec i s = .next t) : t.rx.wf s.cfg.rxCap = true := by
  obtain ⟨-, hrx, -⟩ := id hcons
  obtain ⟨hh, ht, hbuf⟩ := (s.rx.wf_iff _).mp hrx
  cases exec_cases h with
  | app hstage => exact hstage.rx_wf hcons
  | rxhStore =>
    exact (Ring.wf_iff _ _).mpr
      ⟨next_lt (Nat.zero_lt_of_lt hh) _, ht, Memory.set_wfFrom hbuf (Nat.zero_le _) hh _⟩
  | _ => exact hrx

theorem exec_tx_wf {i : Instr} (h : exec i s = .next t) : t.tx.wf s.cfg.txCap = true := by
  obtain ⟨-, -, htx, -⟩ := id hcons
  obtain ⟨hh, ht, hbuf⟩ := (s.tx.wf_iff _).mp htx
  cases exec_cases h with
  | app hstage => exact hstage.tx_wf hcons
  | txh => exact (Ring.wf_iff _ _).mpr ⟨hh, next_lt (Nat.zero_lt_of_lt hh) _, hbuf⟩
  | _ => exact htx

theorem exec_div_lt {i : Instr} (h : exec i s = .next t) : t.div < 2 ^ s.cfg.divW := by
  obtain ⟨-, -, -, hdiv, -⟩ := hcons
  cases exec_cases h with
  | app hstage =>
    cases hstage with
    | i1 => exact BitVec.isLt _
    | _ => simpa [drawOf] using hdiv
  | _ => exact hdiv

/-! ## The App's locals -/

theorem AppStep.keeps_appOk (h : AppStep s t) : appOk t = true := by
  obtain ⟨-, hrx, htx, -, hok⟩ := hcons
  obtain ⟨hrh, -, -⟩ := (s.rx.wf_iff _).mp hrx
  obtain ⟨-, htt, hbuf⟩ := (s.tx.wf_iff _).mp htx
  cases h with
  | w1Hw => rfl
  | w1Ring => simp [appOk, htt]
  | @w2Direct first b e p q ha ht he hpq =>
    obtain ⟨hp, -⟩ := directTest_indices hok htt ha ht
    subst he hpq
    simp [appOk, hp]
  | w2Buffered ha ht =>
    obtain ⟨hp, hq⟩ := directTest_indices hok htt ha ht
    exact (writeLocalsOk_iff _ _).mpr ⟨hp, rfl, hq⟩
  | wsPass ha =>
    rw [appOk, ha, writeLocalsOk_iff] at hok
    obtain ⟨hl, hnh, -⟩ := hok
    exact (writeLocalsOk_iff _ _).mpr ⟨hl, hnh, htt⟩
  | wsSpin => exact hok
  | @wm l b ha =>
    rw [appOk, ha] at hok
    have hstored : (s.tx.buf.set l.h b).get l.h = b := Memory.get_set_same hbuf _ _
    simpa [appOk, writeLocalsOk_iff, hstored] using hok
  | wh ha =>
    rw [appOk, ha, Bool.and_eq_true, writeLocalsOk_iff] at hok
    obtain ⟨⟨-, hnh, hlt⟩, -⟩ := hok
    simp [appOk, hnh, hlt]
  | rd1Data _ he => simp [appOk, hrh, he]
  | rd2 ha =>
    simp only [appOk, ha, Bool.and_eq_true, Bool.or_eq_true, beq_iff_eq, decide_eq_true_eq, Bool.not_eq_true'] at hok
    obtain ⟨⟨hq, hlt⟩, hheld⟩ := hok
    simp [appOk, hq, hlt, hheld]
  | f1 => simp [appOk, hrh]
  | i1 | i2 | i3 | i4 | wd | we | a1 | rd1NoData | rd3Contract | rd3Inverted | f2 => rfl

end

/-- The clauses on the locals hold on when another agent takes its step: it writes no element they speak of, and leaves
the oldest byte of the RX ring where it is. -/
theorem appOk_congr {s t : State} (happ : t.app = s.app) (hcfg : t.cfg = s.cfg) (hbuf : t.tx.buf = s.tx.buf)
    (hhead : t.tx.head = s.tx.head) (htail : t.rx.tail = s.rx.tail)
    (holdest : s.rx.isEmpty = false → t.rx.isEmpty = false ∧ t.rx.buf.get s.rx.tail = s.rx.buf.get s.rx.tail)
    (hok : appOk s = true) : appOk t = true := by
  cases ha : s.app with
  | read stage =>
    cases stage with
    | rd1 => simp [appOk, happ, ha]
    | rd2 =>
      simp only [appOk, happ, ha, hcfg, htail, Bool.and_eq_true, Bool.or_eq_true, Bool.not_eq_true'] at hok ⊢
      exact hok.imp_right (.imp_right fun hne => (holdest hne).1)
    | rd3 =>
      simp only [appOk, happ, ha, hcfg, htail, Bool.and_eq_true, Bool.or_eq_true, beq_iff_eq, Bool.not_eq_true']
        at hok ⊢
      obtain ⟨⟨rfl, hlt⟩, hheld⟩ := hok
      exact ⟨⟨rfl, hlt⟩, hheld.imp_right fun ⟨hne, hv⟩ => ⟨(holdest hne).1, (holdest hne).2.trans hv⟩⟩
  | write stage b =>
    cases stage with
    | w2 first =>
      cases first with
      | hw => simp [appOk, happ, ha]
      | ring => simpa only [appOk, happ, ha, hcfg, hhead] using hok
    | w1 => simp [appOk, happ, ha]
    | wd | ws | wm | wh | we => simpa only [appOk, happ, ha, hcfg, hbuf, hhead, writeLocalsOk] using hok
  | flush stage =>
    cases stage with
    | f1 => simp [appOk, happ, ha]
    | f2 => simpa only [appOk, happ, ha, hcfg] using hok
  | idle | init | avail => simp [appOk, happ, ha]

theorem exec_appOk {i : Instr} {s t : State} (hcons : Consistent s) (h : exec i s = .next t) : appOk t = true := by
  obtain ⟨-, -, -, -, hok⟩ := id hcons
  cases exec_cases h with
  | refused => exact hok
  | issued hi => cases i <;> cases hi <;> rfl
  | app hstage => exact hstage.keeps_appOk hcons
  | rxhStore he hroom =>
    refine appOk_congr (s := s) rfl rfl rfl rfl rfl (fun hne => ⟨hroom, ?_⟩) hok
    have htail : s.rx.tail ≠ s.rx.head := fun heq => by simp [Ring.isEmpty, heq] at hne
    exact Memory.get_set_other _ _ htail
  | rxhDrop | txh | lineRxFill | lineRxLost | lineTx =>
    exact appOk_congr rfl rfl rfl rfl rfl (fun hne => ⟨hne, rfl⟩) hok

/-! ## The invariant along a run -/

theorem exec_consistent {i : Instr} {s t : State} (hcons : Consistent s) (h : exec i s = .next t) : Consistent t := by
  rw [Consistent, exec_cfg h]
  exact ⟨hcons.1, exec_rx_wf hcons h, exec_tx_wf hcons h, exec_div_lt hcons h, exec_appOk hcons h⟩

theorem execAll_consistent {is : List Instr} {s t : State} (hcons : Consistent s) (h : execAll is s = .next t) :
    Consistent t :=
  execAll_induct (fun _ _ _ => exec_consistent) hcons h

/-- Settles O11: the schedule and the mark of a refusal are none of the invariant's, and every transition keeps it. -/
theorem stepKeepsTheInvariant : Obligations.StepKeepsTheInvariant := fun _ _ hcons h =>
  step_preserves (P := Consistent) (fun _ _ => id) (fun _ => id) (fun _ _ _ => exec_consistent) hcons h

/-- Settles O10: both rings are empty at index 0, their storages canonical, and `DIV` is cut to its width. -/
theorem resetMeetsTheInvariant : Obligations.ResetMeetsTheInvariant := by
  have hreset : ∀ (c : Config) (d : ResetDraws), c.wf = true → Consistent (State.resetFrom c d) := by
    intro c d hwf
    have hrx : 0 < c.rxCap := Nat.lt_of_lt_of_le (by decide) (rxCap_ge_two_of_wf hwf)
    have htx : 0 < c.txCap := Nat.lt_of_lt_of_le (by decide) (txCap_ge_two_of_wf hwf)
    exact ⟨hwf, (Ring.wf_iff _ _).mpr ⟨hrx, hrx, bufAtReset_wf ..⟩, (Ring.wf_iff _ _).mpr ⟨htx, htx, bufAtReset_wf ..⟩,
      Nat.mod_lt _ (Nat.two_pow_pos _), rfl⟩
  exact ⟨fun c d hwf => ⟨hreset c d hwf, rfl⟩, hreset _ _ (by decide)⟩

/-! ## Progress -/

/-- In a consistent state every enabled word's step happens: no index is outside its ring (20_memory.md R70). -/
theorem exec_of_enabled {s : State} (hcons : Consistent s) {i : Instr} (he : enabled i s = true) :
    ∃ t, exec i s = .next t := by
  obtain ⟨-, hrx, htx, -, hok⟩ := hcons
  obtain ⟨hrh, hrt, -⟩ := (s.rx.wf_iff _).mp hrx
  obtain ⟨hth, htt, -⟩ := (s.tx.wf_iff _).mp htx
  cases i with
  | init | write | avail | read | flush => exact ⟨_, issue_eq _ s⟩
  | step =>
    have hbusy : s.app ≠ .idle := fun hidle => by simp [enabled, hidle, App.isBusy] at he
    obtain hnext | ⟨l, b, ha, hle, -⟩ | ⟨p, q, ha, hle, -⟩ := exec_step_of_busy hbusy
    · exact hnext
    · rw [appOk, ha] at hok
      obtain ⟨hl, -, -⟩ := (writeLocalsOk_iff s l).mp hok
      omega
    · obtain ⟨hq, -⟩ := reading_of_appOk (v := 0) hok (.inl ha)
      omega
  | rxh =>
    cases hfull : s.rx.isFull s.cfg.rxCap with
    | true => exact ⟨_, exec_rxh_of_full he hfull⟩
    | false => exact ⟨_, exec_rxh_of_not_full he hfull hrh⟩
  | txh => exact ⟨_, exec_txh_of_enabled he htt⟩
  | lineRx d => obtain ⟨-, -, heq⟩ | ⟨-, heq⟩ := execLineRx_cases d s <;> exact ⟨_, heq⟩
  | lineTx => exact ⟨_, exec_lineTx_of_enabled he⟩

theorem enabled_of_exec {i : Instr} {s t : State} (hi : i.cls ≠ .issue) (h : exec i s = .next t) :
    enabled i s = true := by
  cases exec_cases h with
  | refused hf | issued hf => exact absurd (cls_of_firstStage hf) hi
  | app =>
    refine Bool.of_not_eq_false fun hidle => ?_
    cases (exec_step_of_idle ((App.isBusy_eq_false_iff _).mp hidle)).symm.trans h
  | rxhDrop he | rxhStore he | txh he => exact he
  | lineRxFill | lineRxLost => rfl
  | lineTx hen hfull => exact (lineTxEnabled_iff s).mpr ⟨hen, hfull⟩

theorem enabled_of_firstStage {i : Instr} {a : App} (h : firstStage i = some a) (s : State) :
    enabled i s = !s.app.isBusy := by
  cases i <;> cases h <;> rfl

/-- Settles O7, by progress in a consistent state and the equation of each hold. -/
theorem stepsHappenExactlyWhenEnabled : Obligations.StepsHappenExactlyWhenEnabled := by
  intro s i hcons
  refine ⟨fun hi => ⟨fun ⟨t, ht⟩ => enabled_of_exec hi ht, exec_of_enabled hcons⟩, fun hi hdis => ?_,
    exec_step_of_idle, exec_rxh_of_not_enabled, exec_txh_of_not_enabled, exec_lineTx_of_not_enabled⟩
  obtain ⟨a, ha⟩ := exists_firstStage_of_cls hi
  rw [enabled_of_firstStage ha, Bool.not_eq_false'] at hdis
  rw [exec_of_firstStage ha]
  exact issue_of_busy hdis a

end Sys2Proof.Machine
end

section
/-! PROOFS. Outside the two hazards no stale byte is sent (70_reset_and_hazards.md R312, R313): `noStale` is kept by
every hazard-free transition. -/

namespace Sys2Proof.Machine

theorem next_inj {cap i j : Nat} (hi : i < cap) (hj : j < cap) : next cap i = next cap j ↔ i = j := by
  rw [next_cases hi, next_cases hj]
  split <;> split <;> omega

/-- What the stage a WRITE is at needs of the TX ring, for its path to send no stale byte (42_transmit.md R205, R208).
-/
def pathSafe (r : Ring) : App → Prop
  | .write (.w2 (.ring h t)) _ => h ≠ t ∨ r.head = r.tail
  | .write (.wd _ _ _) _ => r.head = r.tail
  | .write (.wm l) _ => l.nh ≠ r.tail
  | .write (.wh l) _ => l.nh ≠ r.tail
  | .write (.we _) _ => r.head ≠ r.tail
  | _ => True

/-- `noStale` in two parts: the drain is armed only over a ring that holds bytes, and the stage in progress is safe. -/
theorem noStale_iff (s : State) :
    noStale s = true ↔ (s.ctrl.txie = true → s.tx.head ≠ s.tx.tail) ∧ pathSafe s.tx s.app := by
  have harmed : (!s.ctrl.txie || !s.tx.isEmpty) = true ↔ (s.ctrl.txie = true → s.tx.head ≠ s.tx.tail) := by
    rw [Ne, ← s.tx.isEmpty_iff]
    cases s.ctrl.txie <;> simp
  rw [noStale, Bool.and_eq_true, harmed]
  refine and_congr_right fun _ => ?_
  split <;> simp_all [pathSafe, Ring.isEmpty]

section
variable {s t : State} (hpath : pathSafe s.tx s.app)
include hpath

/-- A stage arms the drain, or moves the head, only to a ring that holds bytes. -/
theorem AppStep.armed (harmed : s.ctrl.txie = true → s.tx.head ≠ s.tx.tail) (h : AppStep s t)
    (htxie : t.ctrl.txie = true) : t.tx.head ≠ t.tx.tail := by
  cases h with
  | wh ha | we ha => simpa [ha, pathSafe] using hpath
  | wd => simpa using harmed (by simpa using htxie)
  | _ => exact harmed htxie

/-- A stage keeps what the next stage of its WRITE needs, or tests for it. -/
theorem AppStep.keeps_pathSafe (h : AppStep s t) : pathSafe t.tx t.app := by
  cases h with
  | w1Ring => exact em' _
  | @w2Direct first b e p q ha ht he hpq =>
    cases first with
    | hw => cases ht; exact hpq
    | ring p q =>
      cases ht
      rw [ha] at hpath
      exact hpath.resolve_left (absurd hpq)
  | wsPass ha hne => exact hne
  | wsSpin => exact hpath
  | wm ha | wh ha => simpa [ha, pathSafe] using hpath
  | _ => trivial

end

/-- A firing of TXH leaves bytes in the ring wherever the WRITE in progress needs them: the captured head is the head,
so its successor differs from that of the tail. -/
theorem pathSafe_of_txh {s : State} (hcons : Consistent s) (hne : s.tx.head ≠ s.tx.tail) (hpath : pathSafe s.tx s.app)
    (hfree : hazardFree .txh s = true) :
    pathSafe ⟨s.tx.buf, s.tx.head, next s.cfg.txCap s.tx.tail⟩ s.app := by
  obtain ⟨-, -, htx, -, hok⟩ := hcons
  obtain ⟨hh, ht, -⟩ := (s.tx.wf_iff _).mp htx
  have hnext : next s.cfg.txCap s.tx.head ≠ next s.cfg.txCap s.tx.tail := mt (next_inj hh ht).mp hne
  cases ha : s.app with
  | write stage b =>
    rw [ha] at hpath
    cases stage with
    | w1 | ws => trivial
    | w2 first =>
      cases first with
      | hw => trivial
      | ring => exact .inl (hpath.resolve_right hne)
    | wd => exact absurd hpath hne
    | wm l =>
      rw [appOk, ha, writeLocalsOk_iff] at hok
      obtain ⟨hl, hnh, -⟩ := hok
      simpa [pathSafe, hnh, hl] using hnext
    | wh l =>
      rw [appOk, ha, Bool.and_eq_true, writeLocalsOk_iff] at hok
      obtain ⟨⟨hl, hnh, -⟩, -⟩ := hok
      simpa [pathSafe, hnh, hl] using hnext
    | we =>
      simp only [hazardFree, ha, Bool.not_eq_true', beq_eq_false_iff_ne] at hfree
      exact hfree.symm
  | _ => trivial

/-- Settles O12: a stage keeps what the stage after it needs, and TXH is the one word of another agent that writes what
`noStale` speaks of. -/
theorem hazardFreeStepKeepsNoStaleByte : Obligations.HazardFreeStepKeepsNoStaleByte := by
  intro s t i hcons hstale hfree h
  obtain ⟨harmed, hpath⟩ := (noStale_iff s).mp hstale
  rw [noStale_iff]
  cases exec_cases h with
  | app hstage => exact ⟨hstage.armed hpath harmed, hstage.keeps_pathSafe hpath⟩
  | txh he =>
    obtain ⟨htxie, -, -⟩ := (txhEnabled_iff s).mp he
    exact ⟨fun hmore => (of_decide_eq_true hmore).symm, pathSafe_of_txh hcons (harmed htxie) hpath hfree⟩
  | issued hi => cases i <;> cases hi <;> exact ⟨harmed, trivial⟩
  | refused | rxhDrop | rxhStore | lineRxFill | lineRxLost | lineTx => exact ⟨harmed, hpath⟩

end Sys2Proof.Machine
end

section
/-! PROOFS. The registers no rule reads (10_state.md R41, R44; 93_implementation_defined.md U2, U3): hiding them before
a transition changes nothing after it but what is hidden there too. -/

namespace Sys2Proof.Machine

/-! ## Hiding and the named operations -/

@[simp] theorem hideUnread_cfg (s : State) : (hideUnread s).cfg = s.cfg := rfl
@[simp] theorem hideUnread_rx (s : State) : (hideUnread s).rx = s.rx := rfl
@[simp] theorem hideUnread_tx (s : State) : (hideUnread s).tx = s.tx := rfl
@[simp] theorem hideUnread_ctrl (s : State) : (hideUnread s).ctrl = s.ctrl := rfl
@[simp] theorem hideUnread_thrf (s : State) : (hideUnread s).thrf = s.thrf := rfl
@[simp] theorem hideUnread_rxf (s : State) : (hideUnread s).rxf = s.rxf := rfl
@[simp] theorem hideUnread_app (s : State) : (hideUnread s).app = s.app := rfl
@[simp] theorem hideUnread_draws (s : State) : (hideUnread s).draws = s.draws := rfl

/-- What RXH reads of `RDR` is not hidden. -/
theorem hideUnread_rdr_of_rxf {s : State} (h : s.rxf = true) : (hideUnread s).rdr = s.rdr := if_pos h

@[simp] theorem hideUnread_idem (s : State) : hideUnread (hideUnread s) = hideUnread s := by
  cases hf : s.thrf <;> cases hx : s.rxf <;> simp [hideUnread, hf, hx]

@[simp] theorem hideUnread_goTo (a : App) (s : State) : hideUnread (goTo a s) = goTo a (hideUnread s) := rfl
@[simp] theorem hideUnread_finish (r : Response) (s : State) : hideUnread (finish r s) = finish r (hideUnread s) := rfl
@[simp] theorem hideUnread_refuse (s : State) : hideUnread (refuse s) = refuse (hideUnread s) := rfl
@[simp] theorem hideUnread_setRxTail (t : Nat) (s : State) :
    hideUnread (setRxTail t s) = setRxTail t (hideUnread s) := rfl
@[simp] theorem hideUnread_setTxTail (t : Nat) (s : State) :
    hideUnread (setTxTail t s) = setTxTail t (hideUnread s) := rfl
@[simp] theorem hideUnread_setTxHead (h : Nat) (s : State) :
    hideUnread (setTxHead h s) = setTxHead h (hideUnread s) := rfl
@[simp] theorem hideUnread_setTxen (s : State) : hideUnread (setTxen s) = setTxen (hideUnread s) := rfl
@[simp] theorem hideUnread_setRxen (s : State) : hideUnread (setRxen s) = setRxen (hideUnread s) := rfl
@[simp] theorem hideUnread_setRxie (s : State) : hideUnread (setRxie s) = setRxie (hideUnread s) := rfl
@[simp] theorem hideUnread_putTxie (b : Bool) (s : State) : hideUnread (putTxie b s) = putTxie b (hideUnread s) := rfl

@[simp] theorem hideUnread_thrWrite (v : Byte) (s : State) :
    hideUnread (thrWrite v (hideUnread s)) = hideUnread (thrWrite v s) := by
  cases hf : s.thrf <;> cases hx : s.rxf <;> simp [thrWrite_eq_ite, hideUnread, hf, hx]

@[simp] theorem hideUnread_ackRdr (s : State) : hideUnread (ackRdr (hideUnread s)) = hideUnread (ackRdr s) := by
  cases hf : s.thrf <;> simp [hideUnread, ackRdr, hf]

@[simp] theorem hideUnread_fillRdr (d : Byte) (s : State) :
    hideUnread (fillRdr d (hideUnread s)) = hideUnread (fillRdr d s) := by
  cases hf : s.thrf <;> simp [hideUnread, fillRdr, hf]

@[simp] theorem mapNext_next (f : State → State) (s : State) : mapNext f (.next s) = .next (f s) := rfl
@[simp] theorem mapNext_fault (f : State → State) (r : Fault) : mapNext f (.fault r) = .fault r := rfl

/-! ## Hiding before each agent's transition -/

/-- Every stage is made of the operations above, but for the writes of `DIV`, of a slot and of the count of draws. -/
theorem execStep_hideUnread (s : State) :
    mapNext hideUnread (execStep (hideUnread s)) = mapNext hideUnread (execStep s) := by
  unfold execStep
  rw [hideUnread_app]
  split
  case h_1 => rfl
  case h_2 baud _ => exact congrArg (fun u => Host.Outcome.next (goTo (.init .i2 baud) u)) (hideUnread_idem s)
  case h_3 => simp [stageI2]
  case h_4 => simp [stageI3]
  case h_5 => simp [stageI4]
  case h_6 => simp only [stageW1, hideUnread_cfg]; split <;> simp
  case h_7 first _ _ =>
    have hread : directTest first (hideUnread s) = directTest first s := by cases first <;> rfl
    simp [stageW2, hread, apply_ite (mapNext hideUnread)]
  case h_8 => simp [stageWd]
  case h_9 l _ _ => by_cases hfull : l.nh = s.tx.tail <;> simp [stageWs, hfull]
  case h_10 l b _ =>
    simp only [stageWm, hideUnread_cfg, hideUnread_tx]
    split
    next m _ =>
      exact congrArg (fun u => Host.Outcome.next (goTo (.write (.wh l) b) { u with tx := { u.tx with buf := m } }))
        (hideUnread_idem s)
    next => rfl
  case h_11 => simp [stageWh]
  case h_12 => simp [stageWe]
  case h_13 => simp [stageA1]
  case h_14 => cases hp : s.cfg.readPolarity <;> cases he : s.rx.isEmpty <;> simp [stageRd1, hp, he]
  case h_15 => simp only [stageRd2, hideUnread_cfg, hideUnread_rx]; split <;> simp
  case h_16 t v _ =>
    simp only [stageRd3, hideUnread_cfg]
    split
    next => simp
    next =>
      exact congrArg (fun u => Host.Outcome.next (finish (respWord (.data v))
        (setRxTail (drawOf t (next s.cfg.rxCap t) u).1 (drawOf t (next s.cfg.rxCap t) u).2))) (hideUnread_idem s)
  case h_17 => simp [stageF1]
  case h_18 => simp [stageF2]

theorem execRxh_hideUnread (s : State) :
    mapNext hideUnread (execRxh (hideUnread s)) = mapNext hideUnread (execRxh s) := by
  have hguard : rxhEnabled (hideUnread s) = rxhEnabled s := rfl
  cases he : rxhEnabled s with
  | false => simp [execRxh, he, hguard]
  | true =>
    obtain ⟨-, hrxf, -⟩ := (rxhEnabled_iff s).mp he
    simp only [execRxh, rxhBody, he, hguard, hideUnread_rdr_of_rxf hrxf, hideUnread_cfg, hideUnread_rx, if_true]
    split
    next => simp
    next =>
      split
      next m _ =>
        exact congrArg (fun u => Host.Outcome.next { u with rx := ⟨m, next s.cfg.rxCap s.rx.head, s.rx.tail⟩ })
          (hideUnread_ackRdr s)
      next => rfl

theorem execTxh_hideUnread (s : State) :
    mapNext hideUnread (execTxh (hideUnread s)) = mapNext hideUnread (execTxh s) := by
  have hguard : txhEnabled (hideUnread s) = txhEnabled s := rfl
  simp only [execTxh, hguard, txhBody, hideUnread_cfg, hideUnread_tx]
  split
  next =>
    split
    next => rfl
    next => by_cases hlast : next s.cfg.txCap s.tx.tail = s.tx.head <;> simp [hlast]
  next => rfl

theorem execLineTx_hideUnread (s : State) :
    mapNext hideUnread (execLineTx (hideUnread s)) = mapNext hideUnread (execLineTx s) := by
  have hguard : lineTxEnabled (hideUnread s) = lineTxEnabled s := rfl
  cases he : lineTxEnabled s with
  | false => simp [execLineTx, he, hguard]
  | true =>
    obtain ⟨-, hthrf⟩ := (lineTxEnabled_iff s).mp he
    simp only [execLineTx, he, hguard, if_true, mapNext_next]
    cases hx : s.rxf <;> simp [drainThr, hideUnread, hthrf, hx]

theorem execLineRx_hideUnread (d : Byte) (s : State) :
    mapNext hideUnread (execLineRx d (hideUnread s)) = mapNext hideUnread (execLineRx d s) := by
  cases he : s.ctrl.rxen <;> cases hf : s.rxf <;> cases hp : s.cfg.overrunPolicy <;> simp [execLineRx, he, hf, hp]

theorem issue_hideUnread (a : App) (s : State) :
    mapNext hideUnread (issue a (hideUnread s)) = mapNext hideUnread (issue a s) := by
  cases hbusy : s.app.isBusy <;> simp [issue_eq, hbusy]

theorem exec_hideUnread (i : Instr) (s : State) :
    mapNext hideUnread (exec i (hideUnread s)) = mapNext hideUnread (exec i s) := by
  cases i with
  | init | write | avail | read | flush => exact issue_hideUnread _ s
  | step => exact execStep_hideUnread s
  | rxh => exact execRxh_hideUnread s
  | txh => exact execTxh_hideUnread s
  | lineRx d => exact execLineRx_hideUnread d s
  | lineTx => exact execLineTx_hideUnread s

theorem exec_congr_hideUnread {s t : State} (h : hideUnread s = hideUnread t) (i : Instr) :
    mapNext hideUnread (exec i s) = mapNext hideUnread (exec i t) := by
  rw [← exec_hideUnread i s, h, exec_hideUnread]

/-- Settles O17, by induction on the schedule: the states after one word again differ only where nothing is read. -/
theorem unreadRegistersNeverMatter : Obligations.UnreadRegistersNeverMatter := by
  intro is
  induction is with
  | nil => exact fun s t h => congrArg Host.Outcome.next h
  | cons i is ih =>
    intro s t h
    have hstep := exec_congr_hideUnread h i
    rw [execAll, execAll]
    generalize exec i s = rs at hstep
    generalize exec i t = rt at hstep
    cases rs with
    | next u =>
      cases rt with
      | next v => exact ih u v (Host.Outcome.next.inj hstep)
      | fault | refused => cases hstep
    | fault => cases rt <;> cases hstep; rfl
    | refused => cases rt <;> cases hstep; rfl

end Sys2Proof.Machine
end

section
/-! PROOFS. Runs of words that leave a stage waiting (42_transmit.md R204, R208; 60_exceptions.md R270, R281;
70_reset_and_hazards.md R302): what each word of such a run keeps, and the induction over the run. -/

namespace Sys2Proof.Machine

/-- A property that every word of a run keeps holds after it. -/
theorem execAll_induct_mem {P : State → Prop} {is : List Instr}
    (hstep : ∀ i ∈ is, ∀ s t, P s → exec i s = .next t → P t) {s t : State} (hs : P s) (h : execAll is s = .next t) :
    P t := by
  induction is generalizing s with
  | nil => cases h; exact hs
  | cons i is ih =>
    obtain ⟨u, hu, ht⟩ := execAll_cons_next.mp h
    exact ih (fun j hj => hstep j (List.mem_cons_of_mem i hj)) (hstep i (List.mem_cons_self ..) s u hs hu) ht

/-! ## The spin at WS -/

/-- Only TXH moves the tail a spin waits for; every other word leaves the WRITE and its ring as they are. -/
theorem exec_of_spinning {i : Instr} {s t : State} {l : WriteLocals} {b : Byte} (ha : s.app = .write (.ws l) b)
    (hfull : l.nh = s.tx.tail) (hi : i ≠ .txh) (h : exec i s = .next t) :
    t.app = s.app ∧ t.tx = s.tx ∧ t.respLog = s.respLog := by
  cases exec_cases h with
  | issued _ hidle => exact nomatch ha.symm.trans hidle
  | app =>
    cases (exec_step_ws_of_full ha hfull).symm.trans h
    exact ⟨rfl, rfl, rfl⟩
  | txh => exact absurd rfl hi
  | refused | rxhDrop | rxhStore | lineRxFill | lineRxLost | lineTx => exact ⟨rfl, rfl, rfl⟩

/-- Settles O27, by the one word that can end a spin. -/
theorem spinEndsOnlyByATxhFiring : Obligations.SpinEndsOnlyByATxhFiring := by
  intro is s t l b ha hfull htxh
  refine execAll_induct_mem (P := fun u => u.app = s.app ∧ u.tx = s.tx ∧ u.respLog = s.respLog) ?_ ⟨rfl, rfl, rfl⟩
  rintro i hi u v ⟨happ, htx, hlog⟩ hstep
  obtain ⟨happ', htx', hlog'⟩ := exec_of_spinning (happ.trans ha) (htx ▸ hfull) (fun heq => htxh (heq ▸ hi)) hstep
  exact ⟨happ'.trans happ, htx'.trans htx, hlog'.trans hlog⟩

/-- With `THRF = 1` TXH is held, and `THRF` stays 1 while LINE takes nothing. -/
theorem exec_of_spinning_stalled {i : Instr} {s t : State} {l : WriteLocals} {b : Byte}
    (ha : s.app = .write (.ws l) b) (hfull : l.nh = s.tx.tail) (hthrf : s.thrf = true) (hi : i ≠ .lineTx)
    (h : exec i s = .next t) : t.app = s.app ∧ t.tx = s.tx ∧ t.thrf = true := by
  have htxh : i ≠ .txh := by
    rintro rfl
    cases exec_cases h with
    | txh he => simp [hthrf, txhEnabled_iff] at he
    | refused hi | issued hi => cases hi
  obtain ⟨happ, htx, -⟩ := exec_of_spinning ha hfull htxh h
  refine ⟨happ, htx, ?_⟩
  cases exec_cases h with
  | app =>
    cases (exec_step_ws_of_full ha hfull).symm.trans h
    exact hthrf
  | txh => rfl
  | lineTx => exact absurd rfl hi
  | refused | issued | rxhDrop | rxhStore | lineRxFill | lineRxLost => exact hthrf

/-- Settles O55, by induction on the point of the run. -/
theorem stalledLineHangsTheWrite : Obligations.StalledLineHangsTheWrite := by
  intro words states l b hrun hline ha hfull hthrf n
  have hkept : (states n).app = .write (.ws l) b ∧ (states n).tx = (states 0).tx ∧ (states n).thrf = true := by
    induction n with
    | zero => exact ⟨ha, rfl, hthrf⟩
    | succ n ih =>
      obtain ⟨happ, htx, hthrf⟩ := ih
      obtain ⟨i, hd, hi⟩ | ⟨-, -, href⟩ := execWord_cases (hrun n)
      · obtain ⟨happ', htx', hthrf'⟩ := exec_of_spinning_stalled happ (htx ▸ hfull) hthrf
          (fun heq => hline n (heq ▸ hd)) hi
        exact ⟨happ'.trans happ, htx'.trans htx, hthrf'⟩
      · rw [href]
        exact ⟨happ, htx, hthrf⟩
  obtain ⟨happ, htx, hthrf⟩ := hkept
  exact ⟨happ, htx, hthrf, by simp [quiescent, happ, App.isBusy]⟩

/-! ## A pending byte -/

/-- A pending RXH stays pending under every word but its own: `RXIE` is never cleared, and only RXH clears `RXF`. -/
theorem rxhGuard_of_exec {i : Instr} {s t : State} (hg : rxhGuard s = true) (hi : i ≠ .rxh) (h : exec i s = .next t) :
    rxhGuard t = true := by
  rw [rxhGuard_iff] at hg ⊢
  obtain ⟨hrxie, hrxf⟩ := hg
  obtain ⟨-, -, hset, -⟩ := controlBitsAreSetAndClearedAsListed s t i h
  refine ⟨hset.mpr (.inl hrxie), ?_⟩
  cases exec_cases h with
  | app hstage => exact hstage.frame.rxf.trans hrxf
  | rxhDrop | rxhStore => exact absurd rfl hi
  | lineRxFill => rfl
  | refused | issued | txh | lineRxLost | lineTx => exact hrxf

/-- Settles O56: were no RXH to come, its guard would hold for ever from that point on, and a fair run would then take
it. -/
theorem fairRunsHandleEveryReceivedByte : Obligations.FairRunsHandleEveryReceivedByte := by
  rintro words states n hrun ⟨-, hfair, -⟩ hrxie hrxf
  by_contra hnone
  refine hnone (hfair n fun m hm => ?_)
  induction m, hm using Nat.le_induction with
  | base => exact (rxhGuard_iff _).mpr ⟨hrxie, hrxf⟩
  | succ m hm ih =>
    obtain ⟨i, hd, hi⟩ | ⟨-, -, href⟩ := execWord_cases (hrun m)
    · exact rxhGuard_of_exec ih (fun heq => hnone ⟨m, hm, heq ▸ hd⟩) hi
    · rw [href]
      exact ih

/-! ## Before INIT -/

theorem AppStep.op {s t : State} (h : AppStep s t) : t.app.op = s.app.op ∨ t.app = .idle := by
  cases h <;> simp [App.op, *]

/-- A stage writes the THR through `ThrWrite` or not at all (42_transmit.md R221). -/
theorem AppStep.thr_cases {s t : State} (h : AppStep s t) :
    (t.thr = s.thr ∧ t.thrf = s.thrf) ∨ ∃ b, t.thr = (thrWrite b s).thr ∧ t.thrf = true := by
  cases h with
  | @wd e p q b => exact .inr ⟨b, rfl, by simp⟩
  | _ => exact .inl ⟨rfl, rfl⟩

/-- While both directions are off, and no INIT is in progress or issued, a transition keeps them off, and nothing passes
between the THR or the RDR and LINE. -/
theorem exec_before_init {i : Instr} {s t : State} (htxen : s.ctrl.txen = false) (hrxen : s.ctrl.rxen = false)
    (hop : s.app.op ≠ some .init) (hi : ∀ baud, i ≠ .init baud) (h : exec i s = .next t) :
    (t.ctrl.txen = false ∧ t.ctrl.rxen = false ∧ t.app.op ≠ some .init) ∧ t.lineOut = s.lineOut ∧ t.rdr = s.rdr ∧
      (s.thrf = true → t.thrf = true ∧ (s.cfg.thrFullWrite = .drop → t.thr = s.thr)) := by
  cases exec_cases h with
  | issued hfirst =>
    refine ⟨⟨htxen, hrxen, fun hinit => ?_⟩, rfl, rfl, fun hthrf => ⟨hthrf, fun _ => rfl⟩⟩
    obtain ⟨baud, rfl⟩ := init_of_firstStage hfirst hinit
    exact hi baud rfl
  | app hstage =>
    refine ⟨⟨?_, ?_, ?_⟩, hstage.frame.lineOut, hstage.frame.rdr, fun hthrf => ?_⟩
    · rw [← Bool.not_eq_true, hstage.txen_iff]
      rintro (hset | ⟨baud, ha⟩)
      · simp [htxen] at hset
      · simp [ha, App.op] at hop
    · rw [← Bool.not_eq_true, hstage.rxen_iff]
      rintro (hset | ⟨baud, ha⟩)
      · simp [hrxen] at hset
      · simp [ha, App.op] at hop
    · obtain heq | heq := hstage.op <;> rw [heq]
      · exact hop
      · nofun
    · obtain ⟨hthr, hthrf'⟩ | ⟨b, hthr, hthrf'⟩ := hstage.thr_cases
      · exact ⟨hthrf'.trans hthrf, fun _ => hthr⟩
      · exact ⟨hthrf', fun hdrop => by simp [hthr, thrWrite_eq_ite, hthrf, hdrop]⟩
  | txh he =>
    refine ⟨⟨htxen, hrxen, hop⟩, rfl, rfl, fun hthrf => ?_⟩
    simp [hthrf, txhEnabled_iff] at he
  | lineRxFill hen => simp [hrxen] at hen
  | lineTx hen => simp [htxen] at hen
  | refused | rxhDrop | rxhStore | lineRxLost =>
    exact ⟨⟨htxen, hrxen, hop⟩, rfl, rfl, fun hthrf => ⟨hthrf, fun _ => rfl⟩⟩

/-- Settles O21, by induction on the run. -/
theorem nothingCrossesTheLineBeforeInit : Obligations.NothingCrossesTheLineBeforeInit := by
  intro is
  induction is with
  | nil =>
    rintro s t htxen hrxen - - h
    cases h
    exact ⟨htxen, hrxen, rfl, rfl, fun hthrf => ⟨hthrf, fun _ => rfl⟩⟩
  | cons i is ih =>
    intro s t htxen hrxen hop hinit h
    obtain ⟨u, hu, hrest⟩ := execAll_cons_next.mp h
    obtain ⟨⟨htxen', hrxen', hop'⟩, hline, hrdr, hthr⟩ :=
      exec_before_init htxen hrxen hop (fun baud heq => hinit baud (heq ▸ List.mem_cons_self ..)) hu
    obtain ⟨htxen'', hrxen'', hline', hrdr', hthr'⟩ :=
      ih u t htxen' hrxen' hop' (fun baud hmem => hinit baud (List.mem_cons_of_mem i hmem)) hrest
    refine ⟨htxen'', hrxen'', hline'.trans hline, hrdr'.trans hrdr, fun hthrf => ?_⟩
    obtain ⟨hthrf', hbyte⟩ := hthr hthrf
    obtain ⟨hthrf'', hbyte'⟩ := hthr' hthrf'
    exact ⟨hthrf'', fun hdrop => (hbyte' (by rw [exec_cfg hu]; exact hdrop)).trans (hbyte hdrop)⟩

/-! ## The direct path -/

/-- What a WRITE on its direct path leaves to find again: its stage, the TX ring, `CTRL`, the log, and an empty THR. -/
structure SameDirectPath (s t : State) : Prop where
  app : t.app = s.app
  tx : t.tx = s.tx
  ctrl : t.ctrl = s.ctrl
  respLog : t.respLog = s.respLog
  thrf : t.thrf = false

/-- While the App is busy and the THR empty, no word but STEP and TXH touches what the direct path needs: an issue is
refused, and LINE_TX is held. -/
theorem exec_sameDirectPath {i : Instr} {s t : State} (hbusy : s.app ≠ .idle) (hthrf : s.thrf = false)
    (hi : i ≠ .step ∧ i ≠ .txh) (h : exec i s = .next t) : SameDirectPath s t := by
  cases exec_cases h with
  | issued _ hidle => exact absurd hidle hbusy
  | app => exact absurd rfl hi.1
  | txh => exact absurd rfl hi.2
  | lineTx _ hfull => simp [hthrf] at hfull
  | refused | rxhDrop | rxhStore | lineRxFill | lineRxLost => exact ⟨rfl, rfl, rfl, rfl, hthrf⟩

theorem execAll_sameDirectPath {is : List Instr} {s t : State} (h : execAll is s = .next t) (hbusy : s.app ≠ .idle)
    (hthrf : s.thrf = false) (his : ∀ i ∈ is, i ≠ .step ∧ i ≠ .txh) : SameDirectPath s t := by
  refine execAll_induct_mem (P := SameDirectPath s) (fun i hi u v hu hstep => ?_) ⟨rfl, rfl, rfl, rfl, hthrf⟩ h
  have hv := exec_sameDirectPath (hu.app ▸ hbusy) hu.thrf (his i hi) hstep
  exact ⟨hv.app.trans hu.app, hv.tx.trans hu.tx, hv.ctrl.trans hu.ctrl, hv.respLog.trans hu.respLog, hv.thrf⟩

/-- Whichever read stage W1 makes, the two reads together find `THRF` and the indices as they stand at W1, as long as
neither changes before W2 (42_transmit.md R201, R202, R208). -/
theorem exec_step_w1 {s : State} {b : Byte} (ha : s.app = .write .w1 b) :
    ∃ first, exec .step s = .next (goTo (.write (.w2 first) b) s) ∧
      ∀ u, u.tx = s.tx → u.thrf = s.thrf → directTest first u = (!s.thrf, s.tx.head, s.tx.tail) := by
  cases ho : s.cfg.directCheckOrder with
  | hwFirst => exact ⟨_, exec_step_w1_hwFirst ha ho, fun u htx _ => by rw [directTest, htx]⟩
  | ringFirst => exact ⟨_, exec_step_w1_ringFirst ha ho, fun u _ hu => by rw [directTest, hu]⟩

/-- Settles O25, stage by stage, with the words in between keeping what the next stage reads. -/
theorem directPathSurvivesInterleaving : Obligations.DirectPathSurvivesInterleaving := by
  intro xs ys s t b ha hthrf hempty hwords hrun
  obtain ⟨s₁, hw1, hrun⟩ := execAll_cons_next.mp hrun
  obtain ⟨s₂, hxs, hrun⟩ := execAll_append_next.mp hrun
  obtain ⟨s₃, hw2, hrun⟩ := execAll_cons_next.mp hrun
  obtain ⟨s₄, hys, hrun⟩ := execAll_append_next.mp hrun
  obtain ⟨s₅, hwd, hend⟩ := execAll_cons_next.mp hrun
  cases hend
  obtain ⟨first, hw1', htest⟩ := exec_step_w1 ha
  rw [hthrf] at htest
  cases hw1'.symm.trans hw1
  have hx := execAll_sameDirectPath hxs (by simp) hthrf fun i hi => hwords i (List.mem_append_left _ hi)
  cases (exec_step_w2 hx.app (htest s₂ hx.tx hx.thrf)).symm.trans hw2
  rw [if_pos ⟨rfl, hempty⟩] at hys
  have hy := execAll_sameDirectPath hys (by simp) hx.thrf fun i hi => hwords i (List.mem_append_right _ hi)
  cases (exec_step_wd hy.app).symm.trans hwd
  rw [thrWrite_empty b hy.thrf]
  refine ⟨rfl, rfl, hy.ctrl.trans hx.ctrl, hy.tx.trans hx.tx, rfl, ?_⟩
  exact congrArg (· ++ [0x1002]) (hy.respLog.trans hx.respLog)

end Sys2Proof.Machine
end

section
/-! PROOFS. The receive path over a run (41_receive.md R163, R172, R176): what a transition does to the contents of the
RX ring, and the bytes that READ, FLUSH and overflow leave of those RXH stored. -/

namespace Sys2Proof.Machine

/-! ## The response words -/

theorem respWord_kind (r : Resp) : (respWord r).extractLsb' 12 4 = respKind r := by
  have hassoc : respWord r = respKind r ++ (0#4 ++ respPayload r) := BitVec.append_assoc (x₁ := respKind r) (x₂ := 0#4)
  rw [hassoc]
  exact BitVec.extractLsb'_append_eq_left

theorem respWord_payload (r : Resp) : (respWord r).extractLsb' 0 8 = respPayload r :=
  BitVec.extractLsb'_append_eq_right

theorem dataBytes_append (log log' : List Response) : dataBytes (log ++ log') = dataBytes log ++ dataBytes log' := by
  simp [dataBytes]

theorem dataBytes_data (v : Byte) : dataBytes [respWord (.data v)] = [v] := by
  simp [dataBytes, respWord_kind, respWord_payload, respKind, respPayload]

theorem dataBytes_of_kind_ne {r : Resp} (h : respKind r ≠ 3) : dataBytes [respWord r] = [] := by
  have hdata : respKind (.data 0#8) = 3 := rfl
  simpa [dataBytes, respWord_kind, hdata] using h

/-- Settles O53: the kind and the payload of a response word give the response back. -/
theorem responsesKeepNoDataApart : Obligations.ResponsesKeepNoDataApart := by
  refine ⟨rfl, rfl, rfl, rfl, rfl, rfl, respWord_data, fun v heq => ?_, fun vs => ?_, fun c v => ⟨rfl, rfl⟩⟩
  · have hkind := congrArg (·.extractLsb' 12 4) heq
    simp [respWord_kind, respKind] at hkind
  · induction vs with
    | nil => rfl
    | cons v vs ih =>
      rw [List.map_cons, ← List.singleton_append, dataBytes_append, dataBytes_data, ih]
      rfl

/-! ## The RX ring under one transition -/

/-- A word stores a byte into the RX ring, or is a stage of the App, or leaves the ring as it is. -/
theorem exec_rx_cases {i : Instr} {s t : State} (h : exec i s = .next t) :
    (i = .step ∧ AppStep s t) ∨ (t.respLog = s.respLog ∧
      ((rxStoredBy i s = [] ∧ t.rx = s.rx) ∨
       (rxStoredBy i s = [s.rdr] ∧ s.rx.isFull s.cfg.rxCap = false ∧
        t.rx = ⟨s.rx.buf.set s.rx.head s.rdr, next s.cfg.rxCap s.rx.head, s.rx.tail⟩))) := by
  cases exec_cases h with
  | app hstage => exact .inl ⟨rfl, hstage⟩
  | rxhDrop _ hfull => exact .inr ⟨rfl, .inl ⟨if_pos hfull, rfl⟩⟩
  | rxhStore _ hroom => exact .inr ⟨rfl, .inr ⟨by simp [rxStoredBy, hroom], hroom, rfl⟩⟩
  | refused hi | issued hi => cases i <;> cases hi <;> exact .inr ⟨rfl, .inl ⟨rfl, rfl⟩⟩
  | txh | lineRxFill | lineRxLost | lineTx => exact .inr ⟨rfl, .inl ⟨rfl, rfl⟩⟩

theorem collect_cons_of_next {f : Instr → State → List Byte} {i : Instr} {s t : State} (h : exec i s = .next t)
    (is : List Instr) : collect f (i :: is) s = f i s ++ collect f is t := by
  simp [collect, h]

/-! ## READ -/

/-- Under `CONTRACT` a stage of an operation other than FLUSH takes from the ring's contents what it returns as data:
RD3 takes the oldest byte, which RD2 read, and no other stage touches either. -/
theorem AppStep.contents_eq {s t : State} (hcons : Consistent s) (hc : s.cfg.readPolarity = .contract)
    (hop : s.app.op ≠ some .flush) (h : AppStep s t) : ∃ log, t.respLog = s.respLog ++ log ∧
      s.rx.contents s.cfg.rxCap = dataBytes log ++ t.rx.contents s.cfg.rxCap := by
  obtain ⟨-, hrx, -, -, hok⟩ := hcons
  obtain ⟨hh, ht, -⟩ := (s.rx.wf_iff _).mp hrx
  cases h with
  | @rd3Contract p q v ha =>
    refine ⟨_, rfl, ?_⟩
    simp only [appOk, ha, hc, Bool.and_eq_true, Bool.or_eq_true, beq_iff_eq, reduceCtorEq, false_or, Bool.not_eq_true']
      at hok
    obtain ⟨⟨rfl, -⟩, hne, rfl⟩ := hok
    rw [dataBytes_data, Ring.contents_pop hh ht hne]
    rfl
  | rd3Inverted _ hinv => exact nomatch hc.symm.trans hinv
  | wd => exact ⟨[respWord (.done .write)], by simp, by rw [dataBytes_of_kind_ne (by simp [respKind])]; simp⟩
  | i4 | we | a1 | rd1NoData => exact ⟨_, rfl, by rw [dataBytes_of_kind_ne (by simp [respKind])]; rfl⟩
  | f1 ha | f2 ha => simp [ha, App.op] at hop
  | _ => exact ⟨[], by simp, by simp [dataBytes]⟩

theorem op_ne_flush_of_exec {i : Instr} {s t : State} (hop : s.app.op ≠ some .flush) (hi : i ≠ .flush)
    (h : exec i s = .next t) : t.app.op ≠ some .flush := by
  cases exec_cases h with
  | issued hfirst => exact fun hflush => hi (flush_of_firstStage hfirst hflush)
  | app hstage =>
    obtain heq | heq := hstage.op <;> rw [heq]
    · exact hop
    · nofun
  | refused | rxhDrop | rxhStore | txh | lineRxFill | lineRxLost | lineTx => exact hop

theorem exec_contents_eq {i : Instr} {s t : State} (hcons : Consistent s) (hc : s.cfg.readPolarity = .contract)
    (hop : s.app.op ≠ some .flush) (h : exec i s = .next t) : ∃ log, t.respLog = s.respLog ++ log ∧
      s.rx.contents s.cfg.rxCap ++ rxStoredBy i s = dataBytes log ++ t.rx.contents s.cfg.rxCap := by
  obtain ⟨-, hrx, -⟩ := id hcons
  obtain ⟨hh, ht, hbuf⟩ := (s.rx.wf_iff _).mp hrx
  obtain ⟨rfl, hstage⟩ | ⟨hlog, ⟨hnone, heq⟩ | ⟨hone, hroom, heq⟩⟩ := exec_rx_cases h
  · simpa [rxStoredBy] using hstage.contents_eq hcons hc hop
  · exact ⟨[], by simp [hlog], by simp [hnone, heq, dataBytes]⟩
  · exact ⟨[], by simp [hlog], by rw [hone, heq, Ring.contents_push hh ht hbuf hroom]; rfl⟩

/-- Settles O44, by induction on the run: each transition moves bytes from one side of the equation to the other. -/
theorem readsReturnTheStoredBytesInOrder : Obligations.ReadsReturnTheStoredBytesInOrder := by
  intro is
  induction is with
  | nil =>
    rintro s t - - - - h
    cases h
    exact ⟨[], by simp, by simp [collect, dataBytes]⟩
  | cons i is ih =>
    intro s t hcons hc hop hflush h
    obtain ⟨u, hu, hrest⟩ := execAll_cons_next.mp h
    obtain ⟨log, hlog, hmoved⟩ := exec_contents_eq hcons hc hop hu
    have hi : i ≠ .flush := fun heq => hflush (heq ▸ List.mem_cons_self ..)
    obtain ⟨log', hlog', hmoved'⟩ := ih u t (exec_consistent hcons hu) (by rwa [exec_cfg hu])
      (op_ne_flush_of_exec hop hi hu) (fun hmem => hflush (List.mem_cons_of_mem i hmem)) hrest
    rw [exec_cfg hu] at hmoved'
    refine ⟨log ++ log', by rw [hlog', hlog, List.append_assoc], ?_⟩
    calc s.rx.contents s.cfg.rxCap ++ collect rxStoredBy (i :: is) s
      _ = s.rx.contents s.cfg.rxCap ++ rxStoredBy i s ++ collect rxStoredBy is u := by
        rw [collect_cons_of_next hu, List.append_assoc]
      _ = dataBytes log ++ (u.rx.contents s.cfg.rxCap ++ collect rxStoredBy is u) := by
        rw [hmoved, List.append_assoc]
      _ = dataBytes (log ++ log') ++ t.rx.contents s.cfg.rxCap := by
        rw [hmoved', dataBytes_append, List.append_assoc]

/-! ## FLUSH -/

theorem exec_app_of_busy {i : Instr} {s t : State} (hbusy : s.app ≠ .idle) (hi : i ≠ .step) (h : exec i s = .next t) :
    t.app = s.app := by
  cases exec_cases h with
  | issued _ hidle => exact absurd hidle hbusy
  | app => exact absurd rfl hi
  | refused | rxhDrop | rxhStore | txh | lineRxFill | lineRxLost | lineTx => rfl

/-- The ring as it stands, read from the head FLUSH captured: what F2 will leave of it (41_receive.md R175). -/
def afterCapture (h : Nat) (r : Ring) : Ring := ⟨r.buf, r.head, h⟩

/-- Between F1 and F2 the bytes after the captured head are those RXH stored. They are at most as many as the ring
holds, so a ring with room has room after the captured head too. -/
theorem execAll_contents_afterCapture {is : List Instr} {s t : State} {h : Nat} (hcons : Consistent s)
    (ha : s.app = .flush (.f2 h)) (hstep : Instr.step ∉ is)
    (hcount : (afterCapture h s.rx).count s.cfg.rxCap ≤ s.rx.count s.cfg.rxCap) (hrun : execAll is s = .next t) :
    t.app = .flush (.f2 h) ∧ (afterCapture h t.rx).contents s.cfg.rxCap =
      (afterCapture h s.rx).contents s.cfg.rxCap ++ collect rxStoredBy is s := by
  induction is generalizing s with
  | nil => cases hrun; exact ⟨ha, (List.append_nil _).symm⟩
  | cons i is ih =>
    obtain ⟨u, hu, hrest⟩ := execAll_cons_next.mp hrun
    obtain ⟨-, hrx, -, -, hok⟩ := id hcons
    obtain ⟨hh, ht, hbuf⟩ := (s.rx.wf_iff _).mp hrx
    have hcap : h < s.cfg.rxCap := by simpa [appOk, ha] using hok
    have hi : i ≠ .step := fun heq => hstep (heq ▸ List.mem_cons_self ..)
    have happ : u.app = .flush (.f2 h) := (exec_app_of_busy (by simp [ha]) hi hu).trans ha
    have hnext := ih (exec_consistent hcons hu) happ (fun hmem => hstep (List.mem_cons_of_mem i hmem))
    rw [exec_cfg hu] at hnext
    rw [collect_cons_of_next hu, ← List.append_assoc]
    obtain ⟨hstage, -⟩ | ⟨-, ⟨hnone, heq⟩ | ⟨hone, hroom, heq⟩⟩ := exec_rx_cases hu
    · exact absurd hstage hi
    · rw [hnone, List.append_nil, ← heq]
      exact hnext (heq ▸ hcount) hrest
    · have hlast := mt (s.rx.isFull_iff_count hh ht).mpr (Bool.eq_false_iff.mp hroom)
      have hlt := s.rx.count_lt (Nat.zero_lt_of_lt hh)
      have hroom' : (afterCapture h s.rx).isFull s.cfg.rxCap = false :=
        Bool.eq_false_iff.mpr (mt ((afterCapture h s.rx).isFull_iff_count hh hcap).mp (by omega))
      have hpush : (afterCapture h u.rx).contents s.cfg.rxCap = (afterCapture h s.rx).contents s.cfg.rxCap ++ [s.rdr] :=
        heq ▸ Ring.contents_push (r := afterCapture h s.rx) hh hcap hbuf hroom'
      rw [hone, ← hpush]
      refine hnext ?_ hrest
      have hold := s.rx.count_push hh ht (s.rx.buf.set s.rx.head s.rdr) hroom
      have hnew := (afterCapture h s.rx).count_push hh hcap (s.rx.buf.set s.rx.head s.rdr) hroom'
      rw [heq]
      simp only [afterCapture] at hnew hcount ⊢
      omega

/-- Settles O42: at its capture there is nothing after the head, and F2 leaves the ring as read from there. -/
theorem flushKeepsTheBytesStoredAfterItsCapture : Obligations.FlushKeepsTheBytesStoredAfterItsCapture := by
  intro is s t hcons ha hstep hrun
  obtain ⟨s₁, hf1, hrest⟩ := execAll_cons_next.mp hrun
  obtain ⟨u, hwords, hlast⟩ := execAll_append_next.mp hrest
  obtain ⟨t', hf2, hend⟩ := execAll_cons_next.mp hlast
  cases hend
  have hcons₁ := exec_consistent hcons hf1
  cases (exec_step_f1 ha).symm.trans hf1
  obtain ⟨-, hrx, -⟩ := hcons
  obtain ⟨hh, -, -⟩ := (s.rx.wf_iff _).mp hrx
  have hnone : (afterCapture s.rx.head s.rx).contents s.cfg.rxCap = [] := Ring.contents_of_head_eq_tail _ hh
  have hcount : (afterCapture s.rx.head s.rx).count s.cfg.rxCap = 0 := by
    rw [← Ring.length_contents, hnone, List.length_nil]
  obtain ⟨happ, hkept⟩ := execAll_contents_afterCapture hcons₁ rfl hstep (hcount.trans_le (Nat.zero_le _)) hwords
  cases (exec_step_f2 happ).symm.trans hf2
  refine hkept.trans ?_
  rw [goTo_rx, goTo_cfg, hnone]
  rfl

/-! ## Overflow -/

theorem take_take_append (n : Nat) (xs ys : List Byte) : (xs.take n ++ ys).take n = (xs ++ ys).take n := by
  rw [List.take_append, List.take_append, List.take_take, Nat.min_self, List.length_take]
  congr 2
  omega

/-- One byte delivered and handled: it joins the contents unless the ring is full. -/
theorem execAll_recvWords {s : State} (hcons : Consistent s) (hrxen : s.ctrl.rxen = true) (hrxie : s.ctrl.rxie = true)
    (hrxf : s.rxf = false) (harb : s.cfg.handlerArb ≠ .txFirst) (d : Byte) :
    ∃ t, execAll (recvWords d) s = .next t ∧
      t.rx.contents s.cfg.rxCap = (s.rx.contents s.cfg.rxCap ++ [d]).take (s.cfg.rxCap - 1) ∧
      t.rx.tail = s.rx.tail ∧ t.rxf = false ∧ t.respLog = s.respLog ∧ t.refused = s.refused ∧ t.app = s.app ∧
      t.ctrl = s.ctrl := by
  obtain ⟨-, hrx, -⟩ := id hcons
  obtain ⟨hh, ht, hbuf⟩ := (s.rx.wf_iff _).mp hrx
  have hfill : exec (.lineRx d) s = .next (fillRdr d s) := by simp [exec, execLineRx, hrxen, hrxf]
  have he : rxhEnabled (fillRdr d s) = true := (rxhEnabled_iff _).mpr ⟨hrxie, rfl, fun htx => absurd htx harb⟩
  have hlen : (s.rx.contents s.cfg.rxCap).length ≤ s.cfg.rxCap - 1 := by
    rw [Ring.length_contents]
    exact Nat.le_sub_one_of_lt (s.rx.count_lt (Nat.zero_lt_of_lt hh))
  cases hfull : s.rx.isFull s.cfg.rxCap with
  | true =>
    refine ⟨_, execAll_cons_next.mpr ⟨_, hfill, execAll_cons_next.mpr ⟨_, exec_rxh_of_full he hfull, rfl⟩⟩,
      ?_, rfl, rfl, rfl, rfl, rfl, rfl⟩
    have hcount := (s.rx.isFull_iff_count hh ht).mp hfull
    rw [← Ring.length_contents] at hcount
    exact (List.take_left' hcount).symm
  | false =>
    refine ⟨_, execAll_cons_next.mpr ⟨_, hfill, execAll_cons_next.mpr ⟨_, exec_rxh_of_not_full he hfull hh, rfl⟩⟩,
      ?_, rfl, rfl, rfl, rfl, rfl, rfl⟩
    have hcount := mt (s.rx.isFull_iff_count hh ht).mpr (Bool.eq_false_iff.mp hfull)
    rw [← Ring.length_contents] at hcount
    rw [List.take_of_length_le (by rw [List.length_append, List.length_singleton]; omega)]
    exact Ring.contents_push hh ht hbuf hfull

/-- Settles O43, by induction on the bytes: what the ring keeps of the first is kept of the whole list too. -/
theorem overflowKeepsTheFirstBytes : Obligations.OverflowKeepsTheFirstBytes := by
  intro ds
  induction ds with
  | nil =>
    intro s hcons _ _ hrxf _
    obtain ⟨-, hrx, -⟩ := hcons
    obtain ⟨hh, -, -⟩ := (s.rx.wf_iff _).mp hrx
    refine ⟨s, rfl, ?_, rfl, hrxf, rfl, rfl, rfl⟩
    rw [List.append_nil, List.take_of_length_le]
    rw [Ring.length_contents]
    exact Nat.le_sub_one_of_lt (s.rx.count_lt (Nat.zero_lt_of_lt hh))
  | cons d ds ih =>
    intro s hcons hrxen hrxie hrxf harb
    obtain ⟨u, hu, hcont, htail, hrxf', hlog, hrefused, happ, hctrl⟩ := execAll_recvWords hcons hrxen hrxie hrxf harb d
    have hcfg := execAll_cfg hu
    obtain ⟨t, hrun, hcont', htail', hrxf'', hlog', hrefused', happ'⟩ :=
      ih u (execAll_consistent hcons hu) (by rwa [hctrl]) (by rwa [hctrl]) hrxf' (by rwa [hcfg])
    refine ⟨t, execAll_append_next.mpr ⟨u, hu, hrun⟩, ?_, htail'.trans htail, hrxf'', hlog'.trans hlog,
      hrefused'.trans hrefused, happ'.trans happ⟩
    rw [hcfg, hcont] at hcont'
    rw [hcont', take_take_append, List.append_assoc, List.singleton_append]

end Sys2Proof.Machine
end

section
/-! PROOFS. The transmit path over a run (42_transmit.md R200 to R215; 70_reset_and_hazards.md R312, R313): line order,
the whole buffered WRITE, and what TXH makes of a ring that holds no bytes or one. -/

namespace Sys2Proof.Machine

/-! ## Line order -/

/-- The head moves on over a byte that stands in its slot already. -/
theorem Ring.contents_publish {cap : Nat} {r : Ring} (hh : r.head < cap) (ht : r.tail < cap)
    (hfull : r.isFull cap = false) :
    Ring.contents cap ⟨r.buf, next cap r.head, r.tail⟩ = r.contents cap ++ [r.buf.get r.head] := by
  rw [Ring.contents, r.count_push hh ht _ hfull, List.range_succ, List.map_append, List.map_singleton,
    r.tail_add_count_mod hh ht, Ring.contents]

/-- A store to slot `head` is no part of the contents until the head moves. -/
theorem Ring.contents_set_head {cap : Nat} {r : Ring} (hh : r.head < cap) (ht : r.tail < cap) (v : Byte) :
    Ring.contents cap ⟨r.buf.set r.head v, r.head, r.tail⟩ = r.contents cap :=
  Ring.contents_congr rfl rfl fun _ hk => Memory.get_set_other r.buf v (r.head_not_mem_window hh ht hk)

theorem sentAndQueued_congr {s t : State} (hline : t.lineOut = s.lineOut) (hthrf : t.thrf = s.thrf)
    (hthr : t.thr = s.thr) (hcfg : t.cfg = s.cfg) (htx : t.tx.contents s.cfg.txCap = s.tx.contents s.cfg.txCap) :
    sentAndQueued t = sentAndQueued s := by
  simp [sentAndQueued, hline, hthrf, hthr, hcfg, htx]

/-- Of the App's stages only WD and WH hand a byte over, and each puts it last: WD over an empty THR and an empty ring,
WH where the head moves over the byte that WM stored. -/
theorem AppStep.sentAndQueued_eq {s t : State} (hcons : Consistent s) (hpath : pathSafe s.tx s.app)
    (hfree : hazardFree .step s = true) (h : AppStep s t) :
    sentAndQueued t = sentAndQueued s ++ acceptedBy .step s := by
  obtain ⟨-, -, htx, -, hok⟩ := hcons
  obtain ⟨hh, ht, hbuf⟩ := (s.tx.wf_iff _).mp htx
  cases h with
  | @wd e p q b ha =>
    have hthrf : s.thrf = false := by simpa [hazardFree, ha] using hfree
    have hempty : s.tx.contents s.cfg.txCap = [] := by
      rw [ha] at hpath
      rw [← List.length_eq_zero_iff, Ring.length_contents]
      exact (s.tx.isEmpty_iff_count hh ht).mp (s.tx.isEmpty_iff.mpr hpath)
    simp [sentAndQueued, acceptedBy, ha, thrWrite_empty _ hthrf, hthrf, hempty]
  | @wm l b ha =>
    simp only [appOk, ha, writeLocalsOk_iff] at hok
    obtain ⟨hl, -, -⟩ := hok
    simp only [acceptedBy, ha, List.append_nil]
    refine sentAndQueued_congr rfl rfl rfl rfl ?_
    rw [hl]
    exact Ring.contents_set_head hh ht b
  | @wh l b ha =>
    simp only [appOk, ha, Bool.and_eq_true, writeLocalsOk_iff, beq_iff_eq] at hok
    obtain ⟨⟨hl, hnh, -⟩, hstored⟩ := hok
    rw [ha] at hpath
    rw [hl] at hnh hstored
    have hroom : s.tx.isFull s.cfg.txCap = false := by
      rw [Bool.eq_false_iff, Ne, s.tx.isFull_iff, ← hnh]
      exact hpath
    have hpublish := Ring.contents_publish hh ht hroom
    rw [hstored] at hpublish
    simp [sentAndQueued, acceptedBy, ha, hnh, hpublish]
  | wsSpin ha => simp [acceptedBy, ha]
  | w1Hw ha | w1Ring ha | w2Direct ha | w2Buffered ha | wsPass ha | we ha | i1 ha | i2 ha | i3 ha | i4 ha
    | a1 ha | rd1NoData ha | rd1Data ha | rd2 ha | rd3Contract ha | rd3Inverted ha | f1 ha | f2 ha =>
    simp only [acceptedBy, ha, List.append_nil]
    exact sentAndQueued_congr rfl rfl rfl rfl rfl

theorem acceptedBy_of_firstStage {i : Instr} {a : App} (h : firstStage i = some a) (s : State) :
    acceptedBy i s = [] := by
  cases i <;> cases h <;> rfl

theorem exec_sentAndQueued_eq {i : Instr} {s t : State} (hcons : Consistent s) (hstale : noStale s = true)
    (hfree : hazardFree i s = true) (h : exec i s = .next t) : sentAndQueued t = sentAndQueued s ++ acceptedBy i s := by
  obtain ⟨harmed, hpath⟩ := (noStale_iff s).mp hstale
  obtain ⟨-, -, htx, -, -⟩ := id hcons
  obtain ⟨hh, ht, -⟩ := (s.tx.wf_iff _).mp htx
  cases exec_cases h with
  | app hstage => exact hstage.sentAndQueued_eq hcons hpath hfree
  | txh he =>
    obtain ⟨htxie, hthrf, -⟩ := (txhEnabled_iff s).mp he
    have hne : s.tx.isEmpty = false := by simpa [Ring.isEmpty] using harmed htxie
    simp [sentAndQueued, acceptedBy, hthrf, Ring.contents_pop hh ht hne]
  | lineTx hen hthrf => simp [sentAndQueued, acceptedBy, hthrf]
  | refused hi | issued hi =>
    rw [acceptedBy_of_firstStage hi, List.append_nil]
    exact sentAndQueued_congr rfl rfl rfl rfl rfl
  | rxhDrop | rxhStore | lineRxFill | lineRxLost =>
    exact (sentAndQueued_congr rfl rfl rfl rfl rfl).trans (List.append_nil _).symm

theorem safeRun_cons_of_next {i : Instr} {s t : State} (h : exec i s = .next t) (is : List Instr) :
    safeRun (i :: is) s = (hazardFree i s && safeRun is t) := by
  simp [safeRun, alongRun, h]

/-- Settles O35, by induction on the run. -/
theorem lineCarriesTheWritesInOrder : Obligations.LineCarriesTheWritesInOrder := by
  intro is
  induction is with
  | nil =>
    rintro s t - - - h
    cases h
    exact (List.append_nil _).symm
  | cons i is ih =>
    intro s t hcons hstale hsafe h
    obtain ⟨u, hu, hrest⟩ := execAll_cons_next.mp h
    rw [safeRun_cons_of_next hu, Bool.and_eq_true] at hsafe
    obtain ⟨hfree, hsafe⟩ := hsafe
    rw [ih u t (exec_consistent hcons hu) (hazardFreeStepKeepsNoStaleByte s u i hcons hstale hfree hu) hsafe hrest,
      exec_sentAndQueued_eq hcons hstale hfree hu, collect_cons_of_next hu, List.append_assoc]

/-! ## The buffered WRITE -/

/-- The locals of a WRITE on the buffered path, the other agents being still. -/
def bufferedLocals (s : State) : WriteLocals := ⟨false, s.tx.head, s.tx.tail, next s.cfg.txCap s.tx.head⟩

/-- What the buffered stages leave: the byte in slot `head`, the head one further, the drain armed, DONE answered. -/
def afterBufferedWrite (b : Byte) (s : State) : State :=
  finish (respWord (.done .write)) (putTxie true (setTxHead (next s.cfg.txCap s.tx.head)
    { s with tx := ⟨s.tx.buf.set s.tx.head b, s.tx.head, s.tx.tail⟩ }))

/-- Stages W1 and W2 over a full THR lead to WS, under either order of the two reads (42_transmit.md R201, R202). -/
theorem exec_steps_to_ws {s : State} (hthrf : s.thrf = true) (b : Byte) :
    ∃ first, exec .step (goTo (.write .w1 b) s) = .next (goTo (.write (.w2 first) b) s) ∧
      exec .step (goTo (.write (.w2 first) b) s) = .next (goTo (.write (.ws (bufferedLocals s)) b) s) := by
  obtain ⟨first, hw1, htest⟩ := exec_step_w1 (s := goTo (.write .w1 b) s) rfl
  refine ⟨first, hw1, ?_⟩
  have hread := htest (goTo (.write (.w2 first) b) s) rfl rfl
  rw [goTo_thrf, hthrf] at hread
  exact exec_step_w2 rfl hread

/-- The four stages from WS on, where the ring has room (42_transmit.md R204 to R207). -/
theorem execAll_from_ws {s : State} (hh : s.tx.head < s.cfg.txCap) (hroom : next s.cfg.txCap s.tx.head ≠ s.tx.tail)
    (b : Byte) :
    execAll (List.replicate 4 .step) (goTo (.write (.ws (bufferedLocals s)) b) s) =
      .next (afterBufferedWrite b s) :=
  execAll_cons_next.mpr ⟨_, exec_step_ws_of_room rfl hroom, execAll_cons_next.mpr ⟨_, exec_step_wm rfl hh,
    execAll_cons_next.mpr ⟨_, exec_step_wh rfl, execAll_cons_next.mpr ⟨_, exec_step_we rfl, rfl⟩⟩⟩⟩

/-- A whole buffered WRITE from its first stage, where the ring has room. -/
theorem execAll_from_w1 {s : State} (hthrf : s.thrf = true) (hh : s.tx.head < s.cfg.txCap)
    (hroom : next s.cfg.txCap s.tx.head ≠ s.tx.tail) (b : Byte) :
    execAll (List.replicate 6 .step) (goTo (.write .w1 b) s) = .next (afterBufferedWrite b s) := by
  obtain ⟨first, hw1, hw2⟩ := exec_steps_to_ws hthrf b
  exact execAll_cons_next.mpr ⟨_, hw1, execAll_cons_next.mpr ⟨_, hw2, execAll_from_ws hh hroom b⟩⟩

/-- Settles O26, by the run of the six stages; the store and the head's move together are a push. -/
theorem bufferedWriteJoinsTheContents : Obligations.BufferedWriteJoinsTheContents := by
  intro s b hcons hidle hthrf hroom
  obtain ⟨-, -, htx, -, -⟩ := hcons
  obtain ⟨hh, ht, hbuf⟩ := (s.tx.wf_iff _).mp htx
  have hne : next s.cfg.txCap s.tx.head ≠ s.tx.tail := mt (s.tx.isFull_iff _).mpr (Bool.eq_false_iff.mp hroom)
  exact ⟨afterBufferedWrite b s,
    execAll_cons_next.mpr ⟨_, exec_write_of_idle hidle, execAll_from_w1 hthrf hh hne b⟩,
    Ring.contents_push hh ht hbuf hroom, rfl, rfl, rfl, rfl, rfl, hthrf, rfl, rfl, rfl, rfl, rfl⟩

/-! ## CALL WRITE -/

theorem isBusy_of_exec_step {s t : State} (h : exec .step s = .next t) : s.app.isBusy = true :=
  enabled_of_exec (by decide) h

theorem stepsToIdle_of_idle {s : State} (h : s.app = .idle) (fuel : Nat) : stepsToIdle fuel s = some [] := by
  cases fuel <;> simp [stepsToIdle, h, App.isBusy]

theorem stepsToIdle_succ_of_step {s t : State} (h : exec .step s = .next t) (fuel : Nat) :
    stepsToIdle (fuel + 1) s = (stepsToIdle fuel t).map (.step :: ·) := by
  rw [stepsToIdle, if_pos (isBusy_of_exec_step h), h]

/-- STEPs that lead to an idle App are the expansion, under every bound that allows as many. -/
theorem stepsToIdle_eq_some {k fuel : Nat} {s t : State} (hk : k ≤ fuel)
    (h : execAll (List.replicate k .step) s = .next t) (hidle : t.app = .idle) :
    stepsToIdle fuel s = some (List.replicate k .step) := by
  induction k generalizing fuel s with
  | zero => cases h; exact stepsToIdle_of_idle hidle fuel
  | succ k ih =>
    obtain ⟨u, hu, hrest⟩ := execAll_cons_next.mp h
    obtain ⟨fuel, rfl⟩ := Nat.exists_eq_succ_of_ne_zero (by omega : fuel ≠ 0)
    rw [stepsToIdle_succ_of_step hu, ih (by omega) hrest]
    rfl

/-- A STEP into a state that reaches no idle App reaches none either. -/
theorem stepsToIdle_eq_none_of_step {s t : State} (h : exec .step s = .next t)
    (hnone : ∀ fuel, stepsToIdle fuel t = none) (fuel : Nat) : stepsToIdle fuel s = none := by
  cases fuel with
  | zero => rw [stepsToIdle, if_pos (isBusy_of_exec_step h)]
  | succ fuel => rw [stepsToIdle_succ_of_step h, hnone]; rfl

theorem stepsToIdle_of_spinning {s : State} {l : WriteLocals} {b : Byte} (ha : s.app = .write (.ws l) b)
    (hfull : l.nh = s.tx.tail) (fuel : Nat) : stepsToIdle fuel s = none := by
  have hspin := exec_step_ws_of_full ha hfull
  induction fuel with
  | zero => rw [stepsToIdle, if_pos (isBusy_of_exec_step hspin)]
  | succ fuel ih => rw [stepsToIdle_succ_of_step hspin, ih]; rfl

theorem callWords_of_next {i : Instr} {s t : State} (h : exec i s = .next t) (fuel : Nat) :
    callWords fuel i s = (stepsToIdle fuel t).map (i :: ·) := by
  rw [callWords, h]

/-- Settles O29: with room the six stages end; on a full ring the third of them spins. -/
theorem callWriteEndsExactlyWhereThereIsRoom : Obligations.CallWriteEndsExactlyWhereThereIsRoom := by
  intro s b hcons hidle hthrf
  obtain ⟨-, -, htx, -, -⟩ := hcons
  obtain ⟨hh, -, -⟩ := (s.tx.wf_iff _).mp htx
  refine ⟨fun hroom fuel hfuel => ?_, fun hfull fuel => ?_⟩
  · have hne : next s.cfg.txCap s.tx.head ≠ s.tx.tail := mt (s.tx.isFull_iff _).mpr (Bool.eq_false_iff.mp hroom)
    rw [callWords_of_next (exec_write_of_idle hidle),
      stepsToIdle_eq_some hfuel (execAll_from_w1 hthrf hh hne b) rfl]
    rfl
  · obtain ⟨first, hw1, hw2⟩ := exec_steps_to_ws hthrf b
    have hspin : ∀ fuel, stepsToIdle fuel (goTo (.write (.ws (bufferedLocals s)) b) s) = none :=
      stepsToIdle_of_spinning rfl ((s.tx.isFull_iff _).mp hfull)
    rw [callWords_of_next (exec_write_of_idle hidle),
      stepsToIdle_eq_none_of_step hw1 (stepsToIdle_eq_none_of_step hw2 hspin)]
    rfl

/-! ## TXH -/

/-- Settles O28: the firing moves the tail to its successor, which the captured `nh`, the old tail, is not. -/
theorem oneDrainEndsTheSpin : Obligations.OneDrainEndsTheSpin := by
  intro s l b hcons ha hfull he
  obtain ⟨hcfg, -, htx, -, -⟩ := hcons
  obtain ⟨-, ht, -⟩ := (s.tx.wf_iff _).mp htx
  have hne : l.nh ≠ next s.cfg.txCap s.tx.tail := hfull ▸ (next_ne_self (txCap_ge_two_of_wf hcfg) ht).symm
  exact ⟨_, execAll_cons_next.mpr ⟨_, exec_txh_of_enabled he ht,
    execAll_cons_next.mpr ⟨_, exec_step_ws_of_room ha hne, rfl⟩⟩, rfl, rfl⟩

/-- Settles O32: on an empty ring the tail's successor is the head's, so the firing leaves the head one step before the
tail. -/
theorem txhOnAnEmptyRingLeavesItFull : Obligations.TxhOnAnEmptyRingLeavesItFull := by
  intro s hcons hempty he
  obtain ⟨hcfg, -, htx, -, -⟩ := hcons
  obtain ⟨hh, ht, -⟩ := (s.tx.wf_iff _).mp htx
  have heq := s.tx.isEmpty_iff.mp hempty
  have hnext : next s.cfg.txCap s.tx.head = next s.cfg.txCap s.tx.tail := congrArg _ heq
  have hcount := (subMod_eq_last_iff hh (next_lt (Nat.zero_lt_of_lt ht) s.tx.tail)).mpr hnext
  refine ⟨_, exec_txh_of_enabled he ht, rfl, (Ring.isFull_iff _ _).mpr hnext, hcount, ?_, rfl, rfl⟩
  rw [heq]
  exact decide_eq_true (next_ne_self (txCap_ge_two_of_wf hcfg) ht)

/-- What a firing of TXH and LINE's taking of its byte leave. -/
def drainedOnce (s : State) : State :=
  { s with
    lineOut := s.lineOut ++ [s.tx.buf.get s.tx.tail]
    thr := s.tx.buf.get s.tx.tail
    tx := ⟨s.tx.buf, s.tx.head, next s.cfg.txCap s.tx.tail⟩
    ctrl := { s.ctrl with txie := decide (next s.cfg.txCap s.tx.tail ≠ s.tx.head) } }

/-- What is left once the tail has met the head, `k` slots on: the bytes of those slots are on the line. -/
def drained (k : Nat) (s : State) : State :=
  { s with
    lineOut := s.lineOut ++ (List.range k).map fun j => s.tx.buf.get ((s.tx.tail + j) % s.cfg.txCap)
    thr := s.tx.buf.get ((s.tx.tail + (k - 1)) % s.cfg.txCap)
    tx := ⟨s.tx.buf, s.tx.head, s.tx.head⟩
    ctrl := { s.ctrl with txie := false } }

theorem execAll_txh_lineTx {s : State} (hen : s.ctrl.txen = true) (he : txhEnabled s = true)
    (ht : s.tx.tail < s.cfg.txCap) : execAll [.txh, .lineTx] s = .next (drainedOnce s) := by
  obtain ⟨-, hthrf, -⟩ := (txhEnabled_iff s).mp he
  refine execAll_cons_next.mpr ⟨_, exec_txh_of_enabled he ht, execAll_cons_next.mpr
    ⟨_, exec_lineTx_of_enabled ((lineTxEnabled_iff _).mpr ⟨hen, rfl⟩), ?_⟩⟩
  rw [drainThr, ← hthrf]
  rfl

section
variable {s : State} (ht : s.tx.tail < s.cfg.txCap)
include ht

theorem drained_one (hlast : next s.cfg.txCap s.tx.tail = s.tx.head) : drained 1 s = drainedOnce s := by
  simp [drained, drainedOnce, hlast, Nat.mod_eq_of_lt ht]

theorem drained_drainedOnce {k : Nat} (hk : k ≠ 0) : drained k (drainedOnce s) = drained (k + 1) s := by
  obtain ⟨k, rfl⟩ := Nat.exists_eq_succ_of_ne_zero hk
  simp [drained, drainedOnce, List.range_succ_eq_map (n := k + 1), next_add_mod, Nat.mod_eq_of_lt ht, Function.comp_def]

end

/-- An armed drain goes on until its tail meets the head: with the head `k` slots on, and not before, it sends the bytes
of those `k` slots. -/
theorem execAll_drain {k : Nat} (hk : k ≠ 0) {s : State} (ht : s.tx.tail < s.cfg.txCap)
    (hmeets : (s.tx.tail + k) % s.cfg.txCap = s.tx.head)
    (hbefore : ∀ j, j ≠ 0 → j < k → (s.tx.tail + j) % s.cfg.txCap ≠ s.tx.head)
    (htxie : s.ctrl.txie = true) (htxen : s.ctrl.txen = true) (hthrf : s.thrf = false)
    (harb : s.cfg.handlerArb ≠ .rxFirst) :
    execAll (List.replicate k [Instr.txh, Instr.lineTx]).flatten s = .next (drained k s) := by
  induction k generalizing s with
  | zero => exact absurd rfl hk
  | succ k ih =>
    have he : txhEnabled s = true := (txhEnabled_iff s).mpr ⟨htxie, hthrf, fun h => absurd h harb⟩
    rw [List.replicate_succ, List.flatten_cons]
    refine execAll_append_next.mpr ⟨_, execAll_txh_lineTx htxen he ht, ?_⟩
    by_cases hlast : k = 0
    · subst hlast
      rw [drained_one ht hmeets]
      rfl
    · have hmore : next s.cfg.txCap s.tx.tail ≠ s.tx.head := hbefore 1 (by decide) (by omega)
      have hbefore' : ∀ j, j ≠ 0 → j < k → (next s.cfg.txCap s.tx.tail + j) % s.cfg.txCap ≠ s.tx.head := by
        intro j _ hj
        rw [next_add_mod]
        exact hbefore (j + 1) (by omega) (by omega)
      rw [← drained_drainedOnce ht hlast]
      exact ih hlast (next_lt (Nat.zero_lt_of_lt ht) _) ((next_add_mod ..).trans hmeets) hbefore'
        (decide_eq_true hmore) htxen hthrf harb

/-- Settles O33: from an empty ring the head is met again only after all `TX_CAP` slots. -/
theorem rearmedDrainSendsEverySlotOnce : Obligations.RearmedDrainSendsEverySlotOnce := by
  intro s hcons hempty htxie htxen hthrf harb
  obtain ⟨-, -, htx, -, -⟩ := hcons
  obtain ⟨hh, ht, -⟩ := (s.tx.wf_iff _).mp htx
  have hmeets : (s.tx.tail + s.cfg.txCap) % s.cfg.txCap = s.tx.head := by
    rw [Nat.add_mod_right, Nat.mod_eq_of_lt ht, hempty]
  have hbefore : ∀ j, j ≠ 0 → j < s.cfg.txCap → (s.tx.tail + j) % s.cfg.txCap ≠ s.tx.head := by
    intro j hj hlt
    rw [Ne, ← subMod_eq_iff hh ht hlt, (subMod_eq_zero_iff hh ht).mpr hempty]
    exact hj.symm
  have hring : (⟨s.tx.buf, s.tx.head, s.tx.head⟩ : Ring) = s.tx := congrArg (Ring.mk s.tx.buf s.tx.head) hempty
  rw [execAll_drain (by omega) ht hmeets hbefore htxie htxen hthrf harb, drained, hring, ← hempty]

/-! ## The race of the direct-path test with a drain -/

theorem exec_txh_of_last {s : State} (he : txhEnabled s = true) (ht : s.tx.tail < s.cfg.txCap)
    (hlast : next s.cfg.txCap s.tx.tail = s.tx.head) :
    exec .txh s = .next { s with
      thr := s.tx.buf.get s.tx.tail
      thrf := true
      tx := ⟨s.tx.buf, s.tx.head, s.tx.head⟩
      ctrl := { s.ctrl with txie := false } } := by
  rw [exec_txh_of_enabled he ht]
  simp [hlast]

/-- Settles O34: under `HW_FIRST` the test reads `THRF` before the firing and the indices after it, under `RING_FIRST`
the other way round. -/
theorem directTestRacesADrain : Obligations.DirectTestRacesADrain := by
  intro s b hcons ha hthrf he hlast
  obtain ⟨hcfg, -, htx, -, -⟩ := hcons
  obtain ⟨-, ht, -⟩ := (s.tx.wf_iff _).mp htx
  have hne := next_ne_self (txCap_ge_two_of_wf hcfg) ht
  refine ⟨fun ho => ?_, fun ho => ?_⟩
  · have hw1 := exec_step_w1_hwFirst ha ho
    have htxh := exec_txh_of_last (s := goTo (.write (.w2 (.hw (!s.thrf))) b) s) he ht hlast
    refine execAll_cons_next.mpr ⟨_, hw1, execAll_cons_next.mpr ⟨_, htxh, ?_⟩⟩
    refine execAll_cons_next.mpr ⟨_, exec_step_w2 rfl rfl, ?_⟩
    rw [if_pos ⟨by rw [hthrf]; rfl, rfl⟩]
    refine execAll_cons_next.mpr ⟨_, exec_step_wd rfl, ?_⟩
    simp only [thrWrite_eq_ite, goTo_thrf, goTo_cfg, true_and]
    rfl
  · have hw1 := exec_step_w1_ringFirst ha ho
    have htxh := exec_txh_of_last (s := goTo (.write (.w2 (.ring s.tx.head s.tx.tail)) b) s) he ht hlast
    refine execAll_cons_next.mpr ⟨_, hw1, execAll_cons_next.mpr ⟨_, htxh, ?_⟩⟩
    refine execAll_cons_next.mpr ⟨_, exec_step_w2 rfl rfl, ?_⟩
    rw [if_neg (fun h => hne (hlast.trans h.2))]
    rfl

end Sys2Proof.Machine
end

section
/-! PROOFS. The handlers' turns and states (60_exceptions.md R265; 41_receive.md R161; 42_transmit.md R210), and the
inspection view (10_state.md R39, R40, R45). -/

namespace Sys2Proof.Machine

/-! ## Two pending handlers -/

/-- RXH's firing clears its own event and leaves TXH's guard alone. -/
theorem txhEnabled_of_execRxh {s t : State} (h : exec .rxh s = .next t) (htxie : s.ctrl.txie = true)
    (hthrf : s.thrf = false) : txhEnabled t = true := by
  cases exec_cases h with
  | rxhDrop | rxhStore => exact (txhEnabled_iff _).mpr ⟨htxie, hthrf, fun _ hrx => nomatch hrx.2⟩
  | refused hi | issued hi => cases hi

/-- TXH's firing clears its own event and leaves RXH's guard alone. -/
theorem rxhEnabled_of_execTxh {s t : State} (h : exec .txh s = .next t) (hrxie : s.ctrl.rxie = true)
    (hrxf : s.rxf = true) : rxhEnabled t = true := by
  cases exec_cases h with
  | txh => exact (rxhEnabled_iff _).mpr ⟨hrxie, hrxf, fun _ htx => nomatch htx.2⟩
  | refused hi | issued hi => cases hi

section
variable {s : State} (hcons : Consistent s) (hrxie : s.ctrl.rxie = true) (hrxf : s.rxf = true)
  (htxie : s.ctrl.txie = true) (hthrf : s.thrf = false)
include hcons hrxie hrxf htxie hthrf

theorem exists_exec_rxh_txh (harb : s.cfg.handlerArb ≠ .txFirst) :
    ∃ t u, exec .rxh s = .next t ∧ exec .txh t = .next u := by
  obtain ⟨t, ht⟩ := exec_of_enabled (i := .rxh) hcons ((rxhEnabled_iff s).mpr ⟨hrxie, hrxf, fun h => absurd h harb⟩)
  obtain ⟨u, hu⟩ := exec_of_enabled (i := .txh) (exec_consistent hcons ht) (txhEnabled_of_execRxh ht htxie hthrf)
  exact ⟨t, u, ht, hu⟩

theorem exists_exec_txh_rxh (harb : s.cfg.handlerArb ≠ .rxFirst) :
    ∃ t u, exec .txh s = .next t ∧ exec .rxh t = .next u := by
  obtain ⟨t, ht⟩ := exec_of_enabled (i := .txh) hcons ((txhEnabled_iff s).mpr ⟨htxie, hthrf, fun h => absurd h harb⟩)
  obtain ⟨u, hu⟩ := exec_of_enabled (i := .rxh) (exec_consistent hcons ht) (rxhEnabled_of_execTxh ht hrxie hrxf)
  exact ⟨t, u, ht, hu⟩

end

/-- Settles O49: a handler with the turn fires, and its firing ends its own event and so the other's wait. -/
theorem arbitrationOfTwoPendingHandlers : Obligations.ArbitrationOfTwoPendingHandlers := by
  intro s hcons hrxie hrxf htxie hthrf
  have hrxh := exists_exec_rxh_txh hcons hrxie hrxf htxie hthrf
  have htxh := exists_exec_txh_rxh hcons hrxie hrxf htxie hthrf
  refine ⟨fun harb => ⟨hrxh (by simp [harb]), htxh (by simp [harb])⟩, fun harb => ⟨?_, hrxh (by simp [harb])⟩,
    fun harb => ⟨?_, htxh (by simp [harb])⟩⟩
  · refine exec_txh_of_not_enabled (Bool.eq_false_iff.mpr fun he => ?_)
    obtain ⟨-, -, hturn⟩ := (txhEnabled_iff s).mp he
    exact hturn harb ⟨hrxie, hrxf⟩
  · refine exec_rxh_of_not_enabled (Bool.eq_false_iff.mpr fun he => ?_)
    obtain ⟨-, -, hturn⟩ := (rxhEnabled_iff s).mp he
    exact hturn harb ⟨htxie, hthrf⟩

/-! ## The handlers' derived states -/

theorem rxhState_eq_pending_iff (s : State) : rxhState s = .rxPending ↔ s.ctrl.rxie = true ∧ s.rxf = true := by
  rw [← rxhGuard_iff, rxhState]
  split <;> simp [*]

theorem rxhState_eq_idle_iff (s : State) : rxhState s = .rxIdle ↔ ¬(s.ctrl.rxie = true ∧ s.rxf = true) := by
  rw [← rxhGuard_iff, rxhState]
  split <;> simp [*]

theorem txhState_of_armed {s : State} (h : s.ctrl.txie = true) :
    txhState s = if s.thrf = true then .txWait else .txReady := if_pos h

theorem txhState_eq_wait_iff (s : State) : txhState s = .txWait ↔ s.ctrl.txie = true ∧ s.thrf = true := by
  cases htxie : s.ctrl.txie <;> cases hthrf : s.thrf <;> simp [txhState, htxie, hthrf]

/-- Settles O51, transition by transition. -/
theorem handlerStatesMoveAsTheirTablesSay : Obligations.HandlerStatesMoveAsTheirTablesSay := by
  intro s t
  refine ⟨fun h => ?_, fun h => ?_, fun h hwait => ?_, fun d h hidle hpend => ?_, fun d h hen hrxf hrxie => ?_,
    fun baud ha h => ?_, fun l b ha h => ?_⟩
  · cases exec_cases h with
    | rxhDrop he | rxhStore he =>
      obtain ⟨hrxie, hrxf, -⟩ := (rxhEnabled_iff s).mp he
      exact ⟨(rxhState_eq_pending_iff s).mpr ⟨hrxie, hrxf⟩, (rxhState_eq_idle_iff _).mpr fun hrx => nomatch hrx.2⟩
    | refused hi | issued hi => cases hi
  · cases exec_cases h with
    | txh he =>
      obtain ⟨htxie, hthrf, -⟩ := (txhEnabled_iff s).mp he
      simp [txhState, htxie, hthrf]
    | refused hi | issued hi => cases hi
  · cases exec_cases h with
    | lineTx =>
      have htxie := ((txhState_eq_wait_iff s).mp hwait).1
      exact txhState_of_armed (s := drainThr s) htxie
    | refused hi | issued hi => cases hi
  · rw [rxhState_eq_idle_iff] at hidle
    rw [rxhState_eq_pending_iff] at hpend
    cases exec_cases h with
    | lineRxFill =>
      have hrxie : s.ctrl.rxie = true := hpend.1
      exact ⟨hrxie, by simpa [hrxie] using hidle, rfl⟩
    | lineRxLost => exact absurd hpend hidle
    | refused hi | issued hi => cases hi
  · have hfill : exec (.lineRx d) s = .next (fillRdr d s) := by simp [exec, execLineRx, hen, hrxf]
    cases hfill.symm.trans h
    exact (rxhState_eq_pending_iff _).mpr ⟨hrxie, rfl⟩
  · cases (exec_step_i4 ha).symm.trans h
    simp [rxhState, rxhGuard, rxPending]
  · cases (exec_step_we ha).symm.trans h
    exact txhState_of_armed rfl

/-! ## The inspection view -/

theorem Ctrl.view_testBit (c : Ctrl) : c.view.testBit 0 = c.txen ∧ c.view.testBit 1 = c.rxen ∧
    c.view.testBit 2 = c.rxie ∧ c.view.testBit 3 = c.txie := by
  obtain ⟨a, b, c, d⟩ := c
  revert a b c d
  decide

/-- The four fields a view value gives, put back at their bits, are its low four bits. -/
theorem Ctrl.view_ofView (v : Nat) : (Ctrl.ofView v).view = v % 16 := by
  simp only [Ctrl.view, Ctrl.ofView, Nat.toNat_testBit]
  omega

theorem statusView_testBit (s : State) :
    (statusView s).testBit 0 = s.thrf ∧ (statusView s).testBit 1 = s.rxf ∧ statusView s < 4 := by
  unfold statusView
  cases s.thrf <;> cases s.rxf <;> decide

theorem Reg.ofNumber_eq_getElem? (n : Nat) :
    Reg.ofNumber n = [Reg.data, .status, .ctrl, .div, .rxHead, .rxTail, .txHead, .txTail][n]? := by
  match n with
  | 0 | 1 | 2 | 3 | 4 | 5 | 6 | 7 => rfl
  | n + 8 => rfl

/-- Settles O54: the two views bit by bit, and a write of `DATA` by the equation of `ThrWrite`. -/
theorem inspectionShowsTheRegisters : Obligations.InspectionShowsTheRegisters := by
  refine ⟨fun n r => by rw [Reg.ofNumber_eq_getElem?], fun s v => ?_⟩
  refine ⟨Ctrl.view_ofView v, s.ctrl.view_testBit, statusView_testBit s, rfl, rfl, rfl, rfl, rfl, rfl, rfl, ⟨_, rfl⟩,
    ⟨_, rfl⟩, by simp [inspectWrite], thrWrite_empty _, fun hfull hdrop => ?_, fun hfull hover => ?_⟩
  · simp [inspectWrite, thrWrite, hfull, hdrop]
  · simp [inspectWrite, thrWrite, hfull, hover]

end Sys2Proof.Machine
end
